-- ==== Sys2Proof/Word.lean ====
section
/-! DEFINITION. The word types of AArch32 `B` and its small closed sets of names: the two instruction
sets, the fifteen conditions, the branch types, and the reasons for which a word is not a `B`. -/

namespace Sys2Proof

/-- `bits(32)`: the program counter, an offset, a branch target, an A32 instruction (R2). -/
abbrev Word := BitVec 32

/-- `bits(16)`: a T32 instruction or one half of a 32-bit T32 instruction (R3, R42). -/
abbrev Half := BitVec 16

abbrev Byte := BitVec 8

/-- A one-bit encoding field: `S`, `J1`, `J2`, `I1`, `I2` (R64, R65). -/
abbrev Bit := BitVec 1

/-- The instruction set in force, state bit `T` (R24): 0 is A32, 1 is T32. -/
inductive InstrSet where
  | a32
  | t32
deriving DecidableEq, Repr

/-- The conditions of the table of R102, under the names of its column `<c>`. The value 1111 is "not a
condition of `B`" and has no name here. -/
inductive Cond where
  | eq | ne | cs | cc | mi | pl | vs | vc | hi | ls | ge | lt | gt | le | al
deriving DecidableEq, Repr

/-- The enumeration `BranchType`, in full (R115). `B` passes `dir`; the spec gives no member an effect. -/
inductive BranchType where
  | dirCall | indCall | eret | dbgExit | ret | dir | indir | exception | tmFail | reset | unknown
deriving DecidableEq, Repr

/-- Why a word is not an encoding of `B` (R73 to R77): the decoder's verdict `notB(reason)`. -/
inductive NotB where
  /-- A32, the pattern of A1 with `cond` = 1111 (R74). -/
  | a32Cond1111
  /-- T32, the pattern of T1 with `cond` = 1110: `SEE "UDF"` (R75). -/
  | udf
  /-- T32, the pattern of T1 with `cond` = 1111: `SEE "SVC"` (R75). -/
  | svc
  /-- T32, the pattern of T3 with `cond[3:1]` = 111: `SEE "Related encodings"` (R75). -/
  | relatedEncodings
  /-- No pattern of `B` matches (R76). -/
  | notBPattern
deriving DecidableEq, Repr

end Sys2Proof
end

