-- ==== Sys2Proof/Config.lean ====
section
/-! DEFINITION. What is fixed for the machine: the two offsets of the value read from `PC` (R2, R21) and
the size of the address space (R40). The spec leaves no value of an instruction open, so there is no
free value here; its OPEN parameters (`ProgramText`, `HaltAddr`, the launch state) stand in State,
because a step takes nothing but a state (log entry 2). -/

namespace Sys2Proof

/-- `PCReadOffsetA32` (R2): the value read from `PC` in A32 minus the instruction's address. -/
def Config.pcReadOffsetA32 : Word := 8#32

/-- `PCReadOffsetT32` (R2): the value read from `PC` in T32 minus the instruction's address. -/
def Config.pcReadOffsetT32 : Word := 4#32

/-- The number of byte addresses (R40): addresses are 32-bit byte addresses. -/
def Config.addressSpace : Nat := 4294967296

end Sys2Proof
end

