-- ==== Sys2Proof/Syntax.lean ====
section
/-! DEFINITION. The instructions: one constructor per row of spec/opcode_table.json, holding the
operands that rules R107 to R111 give the encoding. -/

namespace Sys2Proof

inductive Instr where
  /-- Row B_A1 (R61, R107): A32, `cond 101 0 imm24`. -/
  | bA1 (cond : Cond) (imm24 : BitVec 24)
  /-- Row B_T1 (R62, R108): T32, `1101 cond imm8`. -/
  | bT1 (cond : Cond) (imm8 : BitVec 8)
  /-- Row B_T2 (R63, R109): T32, `11100 imm11`. -/
  | bT2 (imm11 : BitVec 11)
  /-- Row B_T3 (R64, R110): T32, `11110 S cond imm6 | 10 J1 0 J2 imm11`. -/
  | bT3 (S : Bit) (cond : Cond) (imm6 : BitVec 6) (J1 J2 : Bit) (imm11 : BitVec 11)
  /-- Row B_T4 (R65, R111): T32, `11110 S imm10 | 10 J1 1 J2 imm11`. -/
  | bT4 (S : Bit) (imm10 : BitVec 10) (J1 J2 : Bit) (imm11 : BitVec 11)
deriving DecidableEq, Repr

end Sys2Proof
end

