-- ==== Sys2Proof/WellFormed.lean ====
section
/-! DEFINITION. Which instruction terms are encodings of `B`: the excluded values of the `cond` fields.
Every value of every other field is legal (R76). -/

namespace Sys2Proof

/-- A1 takes every condition (R61; 1111 has no `Cond`); T1 and T3 do not take `AL`, whose field value
1110 belongs to another instruction (R62, R64, R75); T2 and T4 have no `cond` field (R63, R65). -/
def Instr.wellFormed (i : Instr) : Bool :=
  match i with
  | .bA1 _ _ => true
  | .bT1 cond _ => cond != .al
  | .bT2 _ => true
  | .bT3 _ cond _ _ _ _ => cond != .al
  | .bT4 _ _ _ _ _ => true

end Sys2Proof
end

