-- ==== Sys2Proof/Decode.lean ====
section
/-! DEFINITION. The decoder (R71, R73 to R77), total on any bytes and rejecting by name, and after it the
encoder, written from the same encoding tables (R61 to R65). -/

namespace Sys2Proof

/-! ## Byte order and the condition field -/

/-- Two bytes as a halfword, the byte at the lower address least significant (R43). -/
def leHalf (b0 b1 : Byte) : Half := b1 ++ b0

/-- Four bytes as an A32 word, the byte at the lowest address least significant (R43). -/
def leWord (b0 b1 b2 b3 : Byte) : Word := b3 ++ b2 ++ b1 ++ b0

/-- The field value of a condition: the first column of the table of R102. -/
def Cond.bits (c : Cond) : BitVec 4 :=
  match c with
  | .eq => 0b0000#4
  | .ne => 0b0001#4
  | .cs => 0b0010#4
  | .cc => 0b0011#4
  | .mi => 0b0100#4
  | .pl => 0b0101#4
  | .vs => 0b0110#4
  | .vc => 0b0111#4
  | .hi => 0b1000#4
  | .ls => 0b1001#4
  | .ge => 0b1010#4
  | .lt => 0b1011#4
  | .gt => 0b1100#4
  | .le => 0b1101#4
  | .al => 0b1110#4

/-- The fifteen conditions of R102, in the table's order. -/
def Cond.all : List Cond :=
  [.eq, .ne, .cs, .cc, .mi, .pl, .vs, .vc, .hi, .ls, .ge, .lt, .gt, .le, .al]

/-- The condition a 4-bit value names; none for 1111, "not a condition of `B`" (R102). -/
def Cond.ofBits (b : BitVec 4) : Option Cond := Cond.all.find? (fun c => c.bits == b)

/-! ## Decoding one word -/

/-- What the decoder says of one instruction word (R76): a `B`, or not a `B` and why. -/
inductive Verdict where
  | isB (i : Instr)
  | notB (reason : NotB)
deriving DecidableEq, Repr

/-- Decoding in A32 state (R73, R74). -/
def decodeA32 (instr : Word) : Verdict :=
  if instr.extractLsb' 25 3 = 0b101#3 ∧ instr.extractLsb' 24 1 = 0b0#1 then
    match Cond.ofBits (instr.extractLsb' 28 4) with
    | none => .notB .a32Cond1111
    | some cond => .isB (.bA1 cond (instr.extractLsb' 0 24))
  else .notB .notBPattern

/-- A T32 instruction is 32 bits long exactly when `hw1[15:11]` is 11101, 11110 or 11111 (R71). -/
def isWideT32 (hw1 : Half) : Bool :=
  hw1.extractLsb' 11 5 == 0b11101#5 || hw1.extractLsb' 11 5 == 0b11110#5 ||
    hw1.extractLsb' 11 5 == 0b11111#5

/-- Decoding a 16-bit instruction in T32 state: the first two branches of R77. -/
def decodeT16 (hw1 : Half) : Verdict :=
  if hw1.extractLsb' 12 4 = 0b1101#4 then
    match Cond.ofBits (hw1.extractLsb' 8 4) with
    | some .al => .notB .udf
    | none => .notB .svc
    | some cond => .isB (.bT1 cond (hw1.extractLsb' 0 8))
  else if hw1.extractLsb' 11 5 = 0b11100#5 then .isB (.bT2 (hw1.extractLsb' 0 11))
  else .notB .notBPattern

/-- Decoding a 32-bit instruction in T32 state: the third branch of R77. -/
def decodeT32 (hw1 hw2 : Half) : Verdict :=
  if hw1.extractLsb' 11 5 = 0b11110#5 ∧ hw2.extractLsb' 14 2 = 0b10#2 then
    if hw2.extractLsb' 12 1 = 0b0#1 then
      match Cond.ofBits (hw1.extractLsb' 6 4) with
      | some .al => .notB .relatedEncodings
      | none => .notB .relatedEncodings
      | some cond =>
        .isB (.bT3 (hw1.extractLsb' 10 1) cond (hw1.extractLsb' 0 6) (hw2.extractLsb' 13 1)
          (hw2.extractLsb' 11 1) (hw2.extractLsb' 0 11))
    else
      .isB (.bT4 (hw1.extractLsb' 10 1) (hw1.extractLsb' 0 10) (hw2.extractLsb' 13 1)
        (hw2.extractLsb' 11 1) (hw2.extractLsb' 0 11))
  else .notB .notBPattern

/-! ## Decoding bytes -/

/-- What decoding a list of bytes gives: an instruction and the bytes after it, the verdict `notB`, or
that the list ends inside the instruction. -/
inductive Decoded where
  | instr (i : Instr) (rest : List Byte)
  | notB (reason : NotB)
  | truncated
deriving DecidableEq, Repr

/-- A verdict on the first bytes of a list, with the bytes that follow. -/
def Verdict.followedBy (v : Verdict) (rest : List Byte) : Decoded :=
  match v with
  | .isB i => .instr i rest
  | .notB reason => .notB reason

/-- The decoder: an A32 word of four bytes (R73), or a T32 halfword and, when R71 says so, a second one
(R77), taken from the front of the bytes in ascending address order (R43). -/
def decode (set : InstrSet) (bytes : List Byte) : Decoded :=
  match set, bytes with
  | .a32, b0 :: b1 :: b2 :: b3 :: rest => (decodeA32 (leWord b0 b1 b2 b3)).followedBy rest
  | .t32, b0 :: b1 :: rest =>
    if isWideT32 (leHalf b0 b1) then
      match rest with
      | b2 :: b3 :: rest' => (decodeT32 (leHalf b0 b1) (leHalf b2 b3)).followedBy rest'
      | _ => .truncated
    else (decodeT16 (leHalf b0 b1)).followedBy rest
  | _, _ => .truncated

/-! ## Encoding -/

/-- The bytes of a halfword in ascending address order (R43). -/
def halfBytes (h : Half) : List Byte := [h.extractLsb' 0 8, h.extractLsb' 8 8]

/-- The bytes of an A32 word in ascending address order (R43). -/
def wordBytes (w : Word) : List Byte :=
  [w.extractLsb' 0 8, w.extractLsb' 8 8, w.extractLsb' 16 8, w.extractLsb' 24 8]

/-- Format A1 (R61): `cond 101 0 imm24`. -/
def encodeA1 (cond : Cond) (imm24 : BitVec 24) : Word :=
  cond.bits ++ 0b101#3 ++ 0b0#1 ++ imm24

/-- Format T1 (R62): `1101 cond imm8`. -/
def encodeT1 (cond : Cond) (imm8 : BitVec 8) : Half :=
  0b1101#4 ++ cond.bits ++ imm8

/-- Format T2 (R63): `11100 imm11`. -/
def encodeT2 (imm11 : BitVec 11) : Half :=
  0b11100#5 ++ imm11

/-- Format T3, first halfword (R64): `11110 S cond imm6`. -/
def encodeT3hw1 (S : Bit) (cond : Cond) (imm6 : BitVec 6) : Half :=
  0b11110#5 ++ S ++ cond.bits ++ imm6

/-- Format T3, second halfword (R64): `10 J1 0 J2 imm11`. -/
def encodeT3hw2 (J1 J2 : Bit) (imm11 : BitVec 11) : Half :=
  0b10#2 ++ J1 ++ 0b0#1 ++ J2 ++ imm11

/-- Format T4, first halfword (R65): `11110 S imm10`. -/
def encodeT4hw1 (S : Bit) (imm10 : BitVec 10) : Half :=
  0b11110#5 ++ S ++ imm10

/-- Format T4, second halfword (R65): `10 J1 1 J2 imm11`. -/
def encodeT4hw2 (J1 J2 : Bit) (imm11 : BitVec 11) : Half :=
  0b10#2 ++ J1 ++ 0b1#1 ++ J2 ++ imm11

/-- The bytes of an instruction in ascending address order (R43, R61 to R65). -/
def encode (i : Instr) : List Byte :=
  match i with
  | .bA1 cond imm24 => wordBytes (encodeA1 cond imm24)
  | .bT1 cond imm8 => halfBytes (encodeT1 cond imm8)
  | .bT2 imm11 => halfBytes (encodeT2 imm11)
  | .bT3 S cond imm6 J1 J2 imm11 =>
    halfBytes (encodeT3hw1 S cond imm6) ++ halfBytes (encodeT3hw2 J1 J2 imm11)
  | .bT4 S imm10 J1 J2 imm11 =>
    halfBytes (encodeT4hw1 S imm10) ++ halfBytes (encodeT4hw2 J1 J2 imm11)

/-- The instruction set an encoding belongs to (R60). -/
def Instr.set (i : Instr) : InstrSet :=
  match i with
  | .bA1 _ _ => .a32
  | .bT1 _ _ => .t32
  | .bT2 _ => .t32
  | .bT3 _ _ _ _ _ _ => .t32
  | .bT4 _ _ _ _ _ => .t32

/-- `ilen`, the length of an instruction in bytes (R9): 4 for A1, T3, T4 and 2 for T1, T2. -/
def Instr.ilen (i : Instr) : Nat :=
  match i with
  | .bA1 _ _ => 4
  | .bT1 _ _ => 2
  | .bT2 _ => 2
  | .bT3 _ _ _ _ _ _ => 4
  | .bT4 _ _ _ _ _ => 4

/-! ## The words of spec/opcode_table.json -/

/-- A word numbered as the opcode table numbers it, as the instruction set it belongs to and the four
bytes that stand in memory: a 32-bit row of T32 has `hw1` in bits 31:16 (the table's
"halfword_order"), a 16-bit row is followed by zeros. The table's rows tell the set (log entry 9):
a 16-bit row is T32, and a 32-bit row is T32 exactly when bits 31:28 are 1111, which T3 and T4 fix
(R64, R65) and A1 excludes (R61). -/
def tableBytes (nbits w : Nat) : InstrSet × List Byte :=
  if nbits ≤ 16 then (.t32, halfBytes (BitVec.ofNat 16 w) ++ [0#8, 0#8])
  else if (BitVec.ofNat 32 w).extractLsb' 28 4 = 0b1111#4 then
    (.t32, halfBytes ((BitVec.ofNat 32 w).extractLsb' 16 16) ++
      halfBytes ((BitVec.ofNat 32 w).extractLsb' 0 16))
  else (.a32, wordBytes (BitVec.ofNat 32 w))

/-- The instruction the decoder reads from a word of the opcode table, none where it refuses. -/
def decodeTableWord (nbits w : Nat) : Option Instr :=
  match decode (tableBytes nbits w).1 (tableBytes nbits w).2 with
  | .instr i _ => some i
  | .notB _ => none
  | .truncated => none

end Sys2Proof
end

