-- ==== Sys2Proof/Machine/State.lean ====
section
/-! DEFINITION. The state of the machine (R20 to R29, R45, R156), the reasons a step ends without a next
state (R131), and the state a run starts from where nothing is said (log entry 1). -/

namespace Sys2Proof.Machine

/-- `ProgramText` (R45): the bytes that may be fetched, as address and byte, addresses strictly rising.
An address that is not listed holds no byte. -/
abbrev Memory := List Host.Cell

/-- Everything the spec gives the machine. `programText` and `haltAddr` are arguments of the model that
no step changes (R10, R150); they stand here because a step takes nothing but a state (log entry 2). -/
structure State where
  /-- The byte address of the instruction being executed (R20). -/
  pc : Word
  /-- Condition flag Negative (R23). -/
  n : Bool
  /-- Condition flag Zero (R23). -/
  z : Bool
  /-- Condition flag Carry (R23). -/
  c : Bool
  /-- Condition flag oVerflow (R23). -/
  v : Bool
  /-- State bit `T`, the instruction set in force (R24). -/
  t : InstrSet
  /-- `ITSTATE` (R25). -/
  itstate : BitVec 8
  /-- `ProgramText` (R45). -/
  programText : Memory
  /-- `HaltAddr` (R156). -/
  haltAddr : Word
deriving DecidableEq, Repr

/-- A step that does not exist: the run is over, or the machine is stuck. Neither is an exception of the
hardware (R131). -/
inductive Fault where
  /-- The run is over: `pc` = `HaltAddr` at the start of a step, a final state (R156). Raised by the step,
  before anything else. Not an error. Safe: the model goes no further, the chip does. -/
  | halted
  /-- A byte of the instruction is outside `ProgramText`: stuck, not final (R43, U15). Raised by the
  fetch. Safe: the hardware goes on with an exception no source describes. -/
  | fetchOutsideProgramText
deriving DecidableEq, Repr

/-- A refused step: `refuse(reason)` of R9, no next state. -/
inductive Refusal where
  /-- An arm of `exec` that has no meaning yet. No arm answers it now. Safe. -/
  | notModelled (mnemonic : String)
  /-- `pc` is not aligned for the instruction set (R44, U14). Raised before the fetch. Safe. -/
  | misalignedPc
  /-- The IT-state is not legal for the instruction set (R25, U5). Raised before the fetch. Safe. -/
  | illegalItState
  /-- The word is not an encoding of `B` (R76, U9 to U13). Raised by the decoder, and by the meanings of
  T1 and T3 for the condition their encoding excludes. Safe. -/
  | notB (reason : NotB)
  /-- The decode block says UNPREDICTABLE (R114, U1 to U4). Raised by the meanings of T1 to T4. Safe. -/
  | unpredictable
  /-- T2 or T4 takes the condition 1111 from the IT-state (R101, U6). Raised by their meanings. Safe. -/
  | itConditionReserved
  /-- A not-taken `B` at the top of the address space (R106, U7). Raised by every meaning. Safe. -/
  | pastTopOfAddressSpace
  /-- A meaning asked for in the other instruction set, where its rule "Requires T" (R107 to R111). A step
  never asks for it. Raised by every meaning. Safe. -/
  | wrongInstrSet
deriving DecidableEq, Repr

/-- The launch state where nothing else is said. The spec has no reset and makes every field an input
(R29, R150): every value here is the model's choice (log entries 1 and 3). -/
def State.reset : State where
  pc := 0#32
  n := false
  z := false
  c := false
  v := false
  t := .a32
  itstate := 0#8
  programText := []
  haltAddr := 0xFFFFFFFF#32

end Sys2Proof.Machine
end

