-- ==== Sys2Proof/Machine/Flags.lean ====
section
/-! DEFINITION. The condition flags and the IT-state: the condition table (R102), the tests `InITBlock`
and `LastInITBlock` (R104), `ITAdvance` (R105) and the condition that T2 and T4 take (R101). `B`
writes no flag (R23). -/

namespace Sys2Proof.Machine

/-- `ConditionHolds(cond)`: the last column of the table of R102. -/
def conditionHolds (cond : Cond) (s : State) : Bool :=
  match cond with
  | .eq => s.z
  | .ne => !s.z
  | .cs => s.c
  | .cc => !s.c
  | .mi => s.n
  | .pl => !s.n
  | .vs => s.v
  | .vc => !s.v
  | .hi => s.c && !s.z
  | .ls => !s.c || s.z
  | .ge => s.n == s.v
  | .lt => s.n != s.v
  | .gt => !s.z && s.n == s.v
  | .le => s.z || s.n != s.v
  | .al => true

/-- `InITBlock()` (R104): `ITSTATE[3:0]` is not 0000. -/
def inITBlock (s : State) : Bool := s.itstate.extractLsb' 0 4 != 0b0000#4

/-- `LastInITBlock()` (R104): `ITSTATE[3:0]` is 1000. -/
def lastInITBlock (s : State) : Bool := s.itstate.extractLsb' 0 4 == 0b1000#4

/-- `CurrentCond()` of T2 and T4 (R101): `ITSTATE[7:4]` in an IT block, else `AL`; none for 1111. -/
def itCondition (s : State) : Option Cond :=
  if inITBlock s then Cond.ofBits (s.itstate.extractLsb' 4 4) else some .al

/-- `CurrentCond()` (R101): the `cond` field, or the IT-state's condition for T2 and T4. -/
def currentCond (i : Instr) (s : State) : Option Cond :=
  match i with
  | .bA1 cond _ => some cond
  | .bT1 cond _ => some cond
  | .bT2 _ => itCondition s
  | .bT3 _ cond _ _ _ _ => some cond
  | .bT4 _ _ _ _ _ => itCondition s

/-- `ITAdvance()` on a value of `ITSTATE` (R105). -/
def itAdvanceValue (it : BitVec 8) : BitVec 8 :=
  if it.extractLsb' 0 3 = 0b000#3 then 0#8
  else it.extractLsb' 5 3 ++ (it.extractLsb' 0 5 <<< 1)

/-- The IT-state part of the end of a step (R100, R105): `ITAdvance()` in T32 state, nothing in A32. -/
def itAdvance (s : State) : State :=
  { s with
    itstate :=
      match s.t with
      | .a32 => s.itstate
      | .t32 => itAdvanceValue s.itstate }

/-- Is the IT-state legal at the start of a step (R25)? In T32 it is zero or has a nonzero low half, in
A32 it is zero. -/
def itLegal (s : State) : Bool :=
  match s.t with
  | .a32 => s.itstate == 0#8
  | .t32 => s.itstate == 0#8 || s.itstate.extractLsb' 0 4 != 0b0000#4

end Sys2Proof.Machine
end

