-- ==== Sys2Proof/Machine/Operands.lean ====
section
/-! DEFINITION. The operands: the offset `imm32` that each encoding's decode block assembles (R66 to R70)
and the value read from `PC` (R21). -/

namespace Sys2Proof.Machine

/-- `imm32` of A1 (R66): `SignExtend(imm24:'00', 32)`. -/
def imm32A1 (imm24 : BitVec 24) : Word := (imm24 ++ 0b00#2).signExtend 32

/-- `imm32` of T1 (R67): `SignExtend(imm8:'0', 32)`. -/
def imm32T1 (imm8 : BitVec 8) : Word := (imm8 ++ 0b0#1).signExtend 32

/-- `imm32` of T2 (R68): `SignExtend(imm11:'0', 32)`. -/
def imm32T2 (imm11 : BitVec 11) : Word := (imm11 ++ 0b0#1).signExtend 32

/-- `imm32` of T3 (R69): `SignExtend(S:J2:J1:imm6:imm11:'0', 32)`, `J2` above `J1`. -/
def imm32T3 (S : Bit) (imm6 : BitVec 6) (J1 J2 : Bit) (imm11 : BitVec 11) : Word :=
  (S ++ J2 ++ J1 ++ imm6 ++ imm11 ++ 0b0#1).signExtend 32

/-- `I1` and `I2` of T4 (R70): `NOT(J EOR S)`. -/
def t4I (J S : Bit) : Bit := ~~~(J ^^^ S)

/-- `imm32` of T4 (R70): `SignExtend(S:I1:I2:imm10:imm11:'0', 32)`. -/
def imm32T4 (S : Bit) (imm10 : BitVec 10) (J1 J2 : Bit) (imm11 : BitVec 11) : Word :=
  (S ++ t4I J1 S ++ t4I J2 S ++ imm10 ++ imm11 ++ 0b0#1).signExtend 32

/-- The offset an instruction's decode block computes (R66 to R70). -/
def imm32 (i : Instr) : Word :=
  match i with
  | .bA1 _ imm24 => imm32A1 imm24
  | .bT1 _ imm8 => imm32T1 imm8
  | .bT2 imm11 => imm32T2 imm11
  | .bT3 S _ imm6 J1 J2 imm11 => imm32T3 S imm6 J1 J2 imm11
  | .bT4 S imm10 J1 J2 imm11 => imm32T4 S imm10 J1 J2 imm11

/-- `PCReadOffset` of an instruction set (R2, R21). -/
def pcReadOffset (set : InstrSet) : Word :=
  match set with
  | .a32 => Config.pcReadOffsetA32
  | .t32 => Config.pcReadOffsetT32

/-- `PCread`, the value the accessor `PC` returns, modulo 2^32 (R21). -/
def pcRead (s : State) : Word := s.pc + pcReadOffset s.t

end Sys2Proof.Machine
end

