-- ==== Sys2Proof/Machine/Ops.lean ====
section
/-! DEFINITION. The named operations: reading and loading `ProgramText`, fetching (R42, R43), the writes of
the program counter (R103, R106), the execute block of R100 and the parts of a meaning that the
encodings share. No operation here takes an exception: `B` raises none and the spec describes no
trap entry and no trap return (R130, R135, R136). -/

namespace Sys2Proof.Machine

/-! ## ProgramText -/

/-- The byte at an address, none where `ProgramText` is not defined (R45). -/
def Memory.read (m : Memory) (a : Nat) : Option Byte :=
  match m with
  | [] => none
  | (k, b) :: rest => if k = a then some b else Memory.read rest a

/-- `ProgramText` with a byte set at an address. Only loading a program uses it: no step writes (R41). -/
def Memory.write (m : Memory) (a : Nat) (b : Byte) : Memory :=
  match m with
  | [] => [(a, b)]
  | (k, c) :: rest =>
    if a < k then (a, b) :: (k, c) :: rest
    else if a = k then (a, b) :: rest
    else (k, c) :: Memory.write rest a b

/-- The canonical form above a bound: addresses strictly rising from `low` and inside the address space. -/
def Memory.wfFrom (low : Nat) (m : Memory) : Bool :=
  match m with
  | [] => true
  | (k, _) :: rest =>
    decide (low ≤ k) && decide (k < Config.addressSpace) && Memory.wfFrom (k + 1) rest

/-- The canonical form of `ProgramText`. An unlisted address holds no byte, so no listed byte equals what
an unlisted address reads as. -/
def Memory.wf (m : Memory) : Bool := Memory.wfFrom 0 m

/-- `MemRead(a, n)` of R43: `n` bytes in ascending address order, addresses modulo 2^32; none if one of
them is outside `ProgramText`. -/
def readBytes (m : Memory) (a : Word) (n : Nat) : Option (List Byte) :=
  match n with
  | 0 => some []
  | k + 1 =>
    match Memory.read m a.toNat, readBytes m (a + 1#32) k with
    | some b, some bs => some (b :: bs)
    | _, _ => none

/-- `ProgramText` with bytes set from an address on, addresses modulo 2^32: loading a program. -/
def loadBytes (m : Memory) (a : Word) (bytes : List Byte) : Memory :=
  match bytes with
  | [] => m
  | b :: rest => loadBytes (Memory.write m a.toNat b) (a + 1#32) rest

/-! ## From the program counter to an instruction -/

/-- Is `pc` aligned for the instruction set (R44)? -/
def pcAligned (s : State) : Bool :=
  match s.t with
  | .a32 => s.pc.extractLsb' 0 2 == 0b00#2
  | .t32 => s.pc.extractLsb' 0 1 == 0b0#1

/-- The bytes of the instruction at `pc` (R43): four in A32; two in T32, and two more when the first
halfword says that the instruction is 32 bits long. None: the machine is stuck. -/
def fetch (s : State) : Option (List Byte) :=
  match s.t with
  | .a32 => readBytes s.programText s.pc 4
  | .t32 =>
    match readBytes s.programText s.pc 2 with
    | some [b0, b1] =>
      if isWideT32 (leHalf b0 b1) then
        match readBytes s.programText (s.pc + 2#32) 2 with
        | some more => some (b0 :: b1 :: more)
        | none => none
      else some [b0, b1]
    | _ => none

/-- The instruction a step executes, or why it executes none, tested in the order of R134: final state,
alignment, IT-state, fetch, decoding. -/
def issue (s : State) : Host.Outcome Instr Fault Refusal :=
  if s.pc = s.haltAddr then .fault .halted
  else if pcAligned s = false then .refused .misalignedPc
  else if itLegal s = false then .refused .illegalItState
  else
    match fetch s with
    | none => .fault .fetchOutsideProgramText
    | some bytes =>
      match decode s.t bytes with
      | .instr i _ => .next i
      | .notB reason => .refused (.notB reason)
      | .truncated => .fault .fetchOutsideProgramText

/-! ## Writing the program counter -/

/-- `BranchWritePC(address, branch_type)` (R103): the low bits are forced to zero, the instruction set
stays, the branch type has no effect on the state (R115). -/
def branchWritePC (address : Word) (_branchType : BranchType) (s : State) : State :=
  { s with
    pc :=
      match s.t with
      | .a32 => address.extractLsb' 2 30 ++ 0b00#2
      | .t32 => address.extractLsb' 1 31 ++ 0b0#1 }

/-- The sequential advance of a `B` whose condition fails (R106), which does not wrap: past 0xFFFFFFFF it
is refused (U7). In T32 `ITAdvance` still happens. -/
def sequentialAdvance (ilen : Nat) (s : State) : Host.Outcome State Fault Refusal :=
  if s.pc.toNat + ilen < Config.addressSpace then
    .next (itAdvance { s with pc := s.pc + BitVec.ofNat 32 ilen })
  else .refused .pastTopOfAddressSpace

/-! ## The execute block -/

/-- The execute block of R100 for a condition, an offset and a length. -/
def executeBlock (cond : Cond) (offset : Word) (ilen : Nat) (s : State) :
    Host.Outcome State Fault Refusal :=
  if conditionHolds cond s then .next (itAdvance (branchWritePC (pcRead s + offset) .dir s))
  else sequentialAdvance ilen s

/-- A T32 branch whose condition is in its encoding (R108, R110): the condition `AL` is another
instruction (`see`), and inside an IT block it is UNPREDICTABLE. -/
def condBranchT32 (see : NotB) (cond : Cond) (offset : Word) (ilen : Nat) (s : State) :
    Host.Outcome State Fault Refusal :=
  if s.t ≠ .t32 then .refused .wrongInstrSet
  else if cond = .al then .refused (.notB see)
  else if inITBlock s then .refused .unpredictable
  else executeBlock cond offset ilen s

/-- A T32 branch that takes its condition from the IT-state (R109, R111): inside an IT block and not
last it is UNPREDICTABLE, and the condition 1111 is refused (U6). -/
def itBranchT32 (offset : Word) (ilen : Nat) (s : State) : Host.Outcome State Fault Refusal :=
  if s.t ≠ .t32 then .refused .wrongInstrSet
  else if inITBlock s && !lastInITBlock s then .refused .unpredictable
  else
    match itCondition s with
    | none => .refused .itConditionReserved
    | some cond => executeBlock cond offset ilen s

end Sys2Proof.Machine
end

