-- ==== Sys2Proof/Machine/Branch.lean ====
section
/-! DEFINITION. The meanings of the five encodings of `B` (R107 to R111). -/

namespace Sys2Proof.Machine

/-- `B` encoding A1 (R107). -/
def execBA1 (cond : Cond) (imm24 : BitVec 24) (s : State) : Host.Outcome State Fault Refusal :=
  if s.t ≠ .a32 then .refused .wrongInstrSet
  else executeBlock cond (imm32A1 imm24) 4 s

/-- `B` encoding T1 (R108). -/
def execBT1 (cond : Cond) (imm8 : BitVec 8) (s : State) : Host.Outcome State Fault Refusal :=
  condBranchT32 .udf cond (imm32T1 imm8) 2 s

/-- `B` encoding T2 (R109). -/
def execBT2 (imm11 : BitVec 11) (s : State) : Host.Outcome State Fault Refusal :=
  itBranchT32 (imm32T2 imm11) 2 s

/-- `B` encoding T3 (R110). -/
def execBT3 (S : Bit) (cond : Cond) (imm6 : BitVec 6) (J1 J2 : Bit) (imm11 : BitVec 11)
    (s : State) : Host.Outcome State Fault Refusal :=
  condBranchT32 .relatedEncodings cond (imm32T3 S imm6 J1 J2 imm11) 4 s

/-- `B` encoding T4 (R111). -/
def execBT4 (S : Bit) (imm10 : BitVec 10) (J1 J2 : Bit) (imm11 : BitVec 11) (s : State) :
    Host.Outcome State Fault Refusal :=
  itBranchT32 (imm32T4 S imm10 J1 J2 imm11) 4 s

end Sys2Proof.Machine
end

