-- ==== Sys2Proof/Machine/Dispatch.lean ====
section
/-! DEFINITION. One arm per instruction, each a direct call of its meaning. -/

namespace Sys2Proof.Machine

def exec (i : Instr) (s : State) : Host.Outcome State Fault Refusal :=
  match i with
  | .bA1 cond imm24 => Sys2Proof.Machine.execBA1 cond imm24 s
  | .bT1 cond imm8 => Sys2Proof.Machine.execBT1 cond imm8 s
  | .bT2 imm11 => Sys2Proof.Machine.execBT2 imm11 s
  | .bT3 S cond imm6 J1 J2 imm11 => Sys2Proof.Machine.execBT3 S cond imm6 J1 J2 imm11 s
  | .bT4 S imm10 J1 J2 imm11 => Sys2Proof.Machine.execBT4 S imm10 J1 J2 imm11 s

end Sys2Proof.Machine
end

