-- ==== Sys2Proof/Machine/Step.lean ====
section
/-! DEFINITION. One step (R100): the instruction `issue` finds at `pc` is executed. Also how the host
places one instruction where the next step fetches it. -/

namespace Sys2Proof.Machine

def step (s : State) : Host.Outcome State Fault Refusal :=
  match issue s with
  | .next i => exec i s
  | .fault r => .fault r
  | .refused r => .refused r

/-- A word of the opcode table stored at `pc`, and `T` set to the instruction set the word belongs to,
since `T` decides how the bytes are read (R60). It stands for the loading of a program (log entry 3). -/
def State.withFetchWord (s : State) (nbits w : Nat) : State :=
  { s with
    t := (tableBytes nbits w).1
    programText := loadBytes s.programText s.pc (tableBytes nbits w).2 }

end Sys2Proof.Machine
end

