-- ==== Sys2Proof/Machine/Assembler.lean ====
section
/-! DEFINITION. The assembler side of the spec: templates (R78), conditions and qualifiers (R79, R80),
permitted offsets (R81), the inverse of the immediate assembly (R72), the choice of an encoding
(R82) and the canonical disassembly (R84). No step uses this file. -/

namespace Sys2Proof.Machine

/-- The five encodings (R60). -/
inductive Encoding where
  | a1 | t1 | t2 | t3 | t4
deriving DecidableEq, Repr

/-- `<q>` (R80): omitted, `.N` or `.W`. -/
inductive Qualifier where
  | omitted | narrow | wide
deriving DecidableEq, Repr

/-- How a template of R78 takes its condition: `<c>` or `{<c>}`. -/
inductive CondSlot where
  | required | optional
deriving DecidableEq, Repr

/-- How a template of R78 takes its qualifier: `{<q>}`, or `.W` spelled out. -/
inductive QualSlot where
  | optional | wide
deriving DecidableEq, Repr

/-- One row of the table of R78: `B`, a condition slot, a qualifier slot, `<label>`, and D00's comment. -/
structure Template where
  cond : CondSlot
  qual : QualSlot
  comment : String
deriving DecidableEq, Repr

/-- A line of assembler text as R84 prints it; `cond` is none where `<c>` is left out. -/
structure Listing where
  cond : Option Cond
  qual : Qualifier
  target : Word
deriving DecidableEq, Repr

/-- The templates of an encoding (R78). -/
def templates (e : Encoding) : List Template :=
  match e with
  | .a1 => [⟨.optional, .optional, ""⟩]
  | .t1 => [⟨.required, .optional, "Not permitted in IT block"⟩]
  | .t2 => [⟨.optional, .optional, "Outside or last in IT block"⟩]
  | .t3 =>
    [⟨.required, .wide, "Not permitted in IT block, and <label> can be represented in T1"⟩,
      ⟨.required, .optional, "Not permitted in IT block"⟩]
  | .t4 =>
    [⟨.optional, .wide, "<label> can be represented in T2"⟩, ⟨.optional, .optional, ""⟩]

/-- The suffix `<c>` of a condition (R79, R102). -/
def condSuffix (c : Cond) : String :=
  match c with
  | .eq => "EQ"
  | .ne => "NE"
  | .cs => "CS"
  | .cc => "CC"
  | .mi => "MI"
  | .pl => "PL"
  | .vs => "VS"
  | .vc => "VC"
  | .hi => "HI"
  | .ls => "LS"
  | .ge => "GE"
  | .lt => "LT"
  | .gt => "GT"
  | .le => "LE"
  | .al => "AL"

/-- The condition a suffix names (R79): `HS` is `CS`, `LO` is `CC`, and an omitted suffix is `AL`. -/
def condOfSuffix (suffix : String) : Option Cond :=
  if suffix = "" then some .al
  else if suffix = "HS" then some .cs
  else if suffix = "LO" then some .cc
  else Cond.all.find? (fun c => condSuffix c == suffix)

/-- The lowest permitted offset of an encoding (R81). -/
def lowestOffset (e : Encoding) : Int :=
  match e with
  | .a1 => -33554432
  | .t1 => -256
  | .t2 => -2048
  | .t3 => -1048576
  | .t4 => -16777216

/-- The highest permitted offset of an encoding (R81). -/
def highestOffset (e : Encoding) : Int :=
  match e with
  | .a1 => 33554428
  | .t1 => 254
  | .t2 => 2046
  | .t3 => 1048574
  | .t4 => 16777214

/-- What the offsets of an encoding are multiples of (R81). -/
def offsetStep (e : Encoding) : Int :=
  match e with
  | .a1 => 4
  | .t1 => 2
  | .t2 => 2
  | .t3 => 2
  | .t4 => 2

/-- Is an offset permitted for an encoding (R72, R81)? -/
def permits (e : Encoding) (offset : Word) : Bool :=
  decide (lowestOffset e ≤ offset.toInt) && decide (offset.toInt ≤ highestOffset e) &&
    decide (offset.toInt % offsetStep e = 0)

/-- The instruction of an encoding with a condition and an offset: the inverse of the immediate assembly
(R72). T2 and T4 have no field for the condition. -/
def assembleFields (e : Encoding) (cond : Cond) (o : Word) : Instr :=
  match e with
  | .a1 => .bA1 cond (o.extractLsb' 2 24)
  | .t1 => .bT1 cond (o.extractLsb' 1 8)
  | .t2 => .bT2 (o.extractLsb' 1 11)
  | .t3 =>
    .bT3 (o.extractLsb' 20 1) cond (o.extractLsb' 12 6) (o.extractLsb' 18 1) (o.extractLsb' 19 1)
      (o.extractLsb' 1 11)
  | .t4 =>
    .bT4 (o.extractLsb' 24 1) (o.extractLsb' 12 10)
      (~~~(o.extractLsb' 23 1) ^^^ o.extractLsb' 24 1)
      (~~~(o.extractLsb' 22 1) ^^^ o.extractLsb' 24 1) (o.extractLsb' 1 11)

/-- A 16-bit encoding when it can hold the offset and `.W` is not given, else a 32-bit one unless `.N` is
given (R80, R82). -/
def narrowOrWide (short long : Encoding) (q : Qualifier) (offset : Word) : Option Encoding :=
  if q ≠ .wide ∧ permits short offset = true then some short
  else if q ≠ .narrow ∧ permits long offset = true then some long
  else none

/-- The encoding the assembler selects (R79, R80, R82) at a place whose instruction set and IT-state are
those of `s`; none where the branch cannot be written. In A32 `.N` is an error. In T32 outside an IT
block a condition other than `AL` takes T1 or T3; last in an IT block the condition must be the
block's. -/
def selectEncoding (s : State) (cond : Cond) (q : Qualifier) (offset : Word) : Option Encoding :=
  match s.t with
  | .a32 => if q ≠ .narrow ∧ permits .a1 offset = true then some .a1 else none
  | .t32 =>
    if inITBlock s then
      if lastInITBlock s = true ∧ itCondition s = some cond then narrowOrWide .t2 .t4 q offset
      else none
    else if cond = .al then narrowOrWide .t2 .t4 q offset
    else narrowOrWide .t1 .t3 q offset

/-- `B<c><q> <label>` assembled for the address `s.pc` (R81): the offset is the label's address minus the
value read from `PC`. An omitted `<c>` means `AL` (R79). -/
def assemble (s : State) (cond : Option Cond) (q : Qualifier) (label : Word) : Option Instr :=
  match selectEncoding s (cond.getD .al) q (label - pcRead s) with
  | some e => some (assembleFields e (cond.getD .al) (label - pcRead s))
  | none => none

/-- How a condition is printed: left out for `AL` (R84). -/
def printedCond (c : Cond) : Option Cond := if c = .al then none else some c

/-- The canonical disassembly of an instruction at `s.pc` (R84). `showNarrow` says that the narrow form of
T1 must be shown. R84 gives T2 outside an IT block only; DESIGN CHOICE: inside one it prints the
condition of the block (R79, log entry 11). -/
def disassemble (showNarrow : Bool) (s : State) (i : Instr) : Listing :=
  match i with
  | .bA1 cond _ => ⟨printedCond cond, .omitted, pcRead s + imm32 i⟩
  | .bT1 cond _ => ⟨some cond, if showNarrow then .narrow else .omitted, pcRead s + imm32 i⟩
  | .bT2 _ => ⟨(itCondition s).bind printedCond, .omitted, pcRead s + imm32 i⟩
  | .bT3 _ cond _ _ _ _ => ⟨some cond, .wide, pcRead s + imm32 i⟩
  | .bT4 _ _ _ _ _ => ⟨none, .wide, pcRead s + imm32 i⟩

/-- A hexadecimal digit; the upper case is a DESIGN CHOICE (log entry 10). -/
def hexDigit (d : BitVec 4) : Char :=
  ['0', '1', '2', '3', '4', '5', '6', '7', '8', '9', 'A', 'B', 'C', 'D', 'E', 'F'].getD d.toNat '0'

/-- A hexadecimal address. R84 says no more than that; DESIGN CHOICE: `0x` and eight upper-case digits,
zero-padded (log entry 10). -/
def hexWord (w : Word) : String :=
  "0x" ++ String.ofList ([28, 24, 20, 16, 12, 8, 4, 0].map (fun k => hexDigit (w.extractLsb' k 4)))

/-- The text of a qualifier (R80). -/
def qualSuffix (q : Qualifier) : String :=
  match q with
  | .omitted => ""
  | .narrow => ".N"
  | .wide => ".W"

/-- The text of a line (R84). DESIGN CHOICE: no padding, one space before the target (log entry 10). -/
def render (l : Listing) : String :=
  "B" ++ (match l.cond with | some c => condSuffix c | none => "") ++ qualSuffix l.qual ++ " " ++
    hexWord l.target

end Sys2Proof.Machine
end

