-- ==== Sys2Proof/Safety.lean ====
section
/-! DEFINITION. What claims about runs are stated in: the premises a launch state must meet (R151),
where a `B` may stand (R154), and how a run can go (R156). -/

namespace Sys2Proof.Machine

/-- The premises (a) and (b) of R151: `pc` aligned and the IT-state legal for the instruction set. -/
abbrev State.Admissible (s : State) : Prop := pcAligned s = true ∧ itLegal s = true

/-- The placement rule of R154: T1 and T3 outside an IT block, T2 and T4 outside or last in one, A1
anywhere. Where it is broken the decode block says UNPREDICTABLE (R114). -/
abbrev ItPlaced (i : Instr) (s : State) : Prop :=
  match i with
  | .bA1 _ _ => True
  | .bT1 _ _ => inITBlock s = false
  | .bT2 _ => inITBlock s = false ∨ lastInITBlock s = true
  | .bT3 _ _ _ _ _ _ => inITBlock s = false
  | .bT4 _ _ _ _ _ => inITBlock s = false ∨ lastInITBlock s = true

/-- What every step keeps: the premises of R151 and the canonical form of `ProgramText`. -/
abbrev State.Inv (s : State) : Prop := s.Admissible ∧ Memory.wf s.programText = true

/-- A final state (R156): the run is over. -/
abbrev State.Final (s : State) : Prop := s.pc = s.haltAddr

/-- The state `k` steps later, or why an earlier step had none: the repeated step of a run (R156). -/
def run (k : Nat) (s : State) : Host.Outcome State Fault Refusal :=
  match k with
  | 0 => .next s
  | j + 1 =>
    match step s with
    | .next s' => run j s'
    | .fault r => .fault r
    | .refused r => .refused r

/-- A run ends well when some number of steps reaches a final state (R156); a refused or stuck state that
is not final is no end of run. -/
def EndsWell (s : State) : Prop := ∃ k s', run k s = .next s' ∧ s'.Final

/-- A run hangs when every number of steps has a next state, so that it never ends (R156). -/
def Hangs (s : State) : Prop := ∀ k, ∃ s', run k s = .next s'

end Sys2Proof.Machine
end

