-- ==== Sys2Proof/Certificates/Slice0/Obligations.lean ====
section
/-! DEFINITION. The statements for the provers. `OBLIGATIONS.json` lists them in this order. -/

open Sys2Proof Sys2Proof.Machine

/-! ## Encodings -/

/-- O1. Words written out from the diagrams of R61 to R65 decode to the instructions they stand for, one
or two for each encoding (95_test_vectors.md section 2). -/
def Obligations.SpecWordsDecode : Prop :=
  decode .a32 [0x02#8, 0x00#8, 0x00#8, 0x0A#8] = .instr (.bA1 .eq 2#24) [] ∧
  decode .a32 [0xFE#8, 0xFF#8, 0xFF#8, 0xEA#8] = .instr (.bA1 .al 0xFFFFFE#24) [] ∧
  decode .t32 [0xFC#8, 0xD1#8] = .instr (.bT1 .ne 0xFC#8) [] ∧
  decode .t32 [0xFE#8, 0xE7#8] = .instr (.bT2 0x7FE#11) [] ∧
  decode .t32 [0xC0#8, 0xF6#8, 0x00#8, 0x88#8] = .instr (.bT3 1#1 .lt 0#6 0#1 1#1 0#11) [] ∧
  decode .t32 [0xFF#8, 0xF7#8, 0xFF#8, 0xB7#8] =
    .instr (.bT4 1#1 0x3FF#10 1#1 0#1 0x7FF#11) []

/-- O2. Decode and encode agree: the bytes of a well-formed instruction decode to it, whatever bytes
follow (R60 to R65, R73, R77). -/
def Obligations.DecodeOfEncode : Prop :=
  ∀ (i : Instr) (rest : List Byte), i.wellFormed = true →
    decode i.set (encode i ++ rest) = .instr i rest

/-- O3. Encode and decode agree: bytes that decode to an instruction are its encoding, the instruction is
well formed and of the instruction set decoded for (R60 to R65, R73 to R77). -/
def Obligations.EncodeOfDecode : Prop :=
  ∀ (set : InstrSet) (bytes rest : List Byte) (i : Instr), decode set bytes = .instr i rest →
    i.wellFormed = true ∧ i.set = set ∧ bytes = encode i ++ rest

/-- O4. Decoding in A32 state, by mask and match (R73). -/
def Obligations.DecodingInA32 : Prop :=
  ∀ instr : Word,
    (instr &&& 0x0F000000#32 = 0x0A000000#32 →
      (instr.extractLsb' 28 4 = 0b1111#4 → decodeA32 instr = .notB .a32Cond1111) ∧
      (instr.extractLsb' 28 4 ≠ 0b1111#4 →
        ∃ cond : Cond, cond.bits = instr.extractLsb' 28 4 ∧
          decodeA32 instr = .isB (.bA1 cond (instr.extractLsb' 0 24)))) ∧
    (instr &&& 0x0F000000#32 ≠ 0x0A000000#32 → decodeA32 instr = .notB .notBPattern)

/-- O5. Decoding in T32 state, by masks and matches (R77). -/
def Obligations.DecodingInT32 : Prop :=
  (∀ hw1 : Half, hw1 &&& 0xF000#16 = 0xD000#16 →
    (hw1.extractLsb' 8 4 = 0b1110#4 → decodeT16 hw1 = .notB .udf) ∧
    (hw1.extractLsb' 8 4 = 0b1111#4 → decodeT16 hw1 = .notB .svc) ∧
    (hw1.extractLsb' 9 3 ≠ 0b111#3 →
      ∃ cond : Cond, cond.bits = hw1.extractLsb' 8 4 ∧
        decodeT16 hw1 = .isB (.bT1 cond (hw1.extractLsb' 0 8)))) ∧
  (∀ hw1 : Half, hw1 &&& 0xF800#16 = 0xE000#16 →
    decodeT16 hw1 = .isB (.bT2 (hw1.extractLsb' 0 11))) ∧
  (∀ hw1 : Half, hw1 &&& 0xF000#16 ≠ 0xD000#16 → hw1 &&& 0xF800#16 ≠ 0xE000#16 →
    decodeT16 hw1 = .notB .notBPattern) ∧
  (∀ hw1 hw2 : Half, (hw1 ++ hw2 : Word) &&& 0xF800D000#32 = 0xF0008000#32 →
    (hw1.extractLsb' 7 3 = 0b111#3 → decodeT32 hw1 hw2 = .notB .relatedEncodings) ∧
    (hw1.extractLsb' 7 3 ≠ 0b111#3 →
      ∃ cond : Cond, cond.bits = hw1.extractLsb' 6 4 ∧
        decodeT32 hw1 hw2 =
          .isB (.bT3 (hw1.extractLsb' 10 1) cond (hw1.extractLsb' 0 6) (hw2.extractLsb' 13 1)
            (hw2.extractLsb' 11 1) (hw2.extractLsb' 0 11)))) ∧
  (∀ hw1 hw2 : Half, (hw1 ++ hw2 : Word) &&& 0xF800D000#32 = 0xF0009000#32 →
    decodeT32 hw1 hw2 =
      .isB (.bT4 (hw1.extractLsb' 10 1) (hw1.extractLsb' 0 10) (hw2.extractLsb' 13 1)
        (hw2.extractLsb' 11 1) (hw2.extractLsb' 0 11))) ∧
  (∀ hw1 hw2 : Half, (hw1 ++ hw2 : Word) &&& 0xF800D000#32 ≠ 0xF0008000#32 →
    (hw1 ++ hw2 : Word) &&& 0xF800D000#32 ≠ 0xF0009000#32 →
    decodeT32 hw1 hw2 = .notB .notBPattern) ∧
  (∀ (b0 b1 : Byte) (rest : List Byte), isWideT32 (leHalf b0 b1) = false →
    decode .t32 (b0 :: b1 :: rest) = (decodeT16 (leHalf b0 b1)).followedBy rest) ∧
  (∀ (b0 b1 b2 b3 : Byte) (rest : List Byte), isWideT32 (leHalf b0 b1) = true →
    decode .t32 (b0 :: b1 :: b2 :: b3 :: rest) =
      (decodeT32 (leHalf b0 b1) (leHalf b2 b3)).followedBy rest)

/-- O6. The patterns next to `B` are not `B`, by name (R74, R75), and a step refuses a word that is not `B`
(R76, the spec's decision D9). -/
def Obligations.NeighbouringPatternsAreNotB : Prop :=
  (∀ imm24 : BitVec 24,
    decodeA32 (0b1111#4 ++ 0b1010#4 ++ imm24) = .notB .a32Cond1111) ∧
  (∀ (cond : BitVec 4) (imm24 : BitVec 24),
    decodeA32 (cond ++ 0b1011#4 ++ imm24) = .notB .notBPattern) ∧
  (∀ imm8 : BitVec 8, decodeT16 (0b1101#4 ++ 0b1110#4 ++ imm8) = .notB .udf) ∧
  (∀ imm8 : BitVec 8, decodeT16 (0b1101#4 ++ 0b1111#4 ++ imm8) = .notB .svc) ∧
  (∀ (S x J1 J2 : Bit) (imm6 : BitVec 6) (imm11 : BitVec 11),
    decodeT32 (0b11110#5 ++ S ++ 0b111#3 ++ x ++ imm6) (0b10#2 ++ J1 ++ 0b0#1 ++ J2 ++ imm11) =
      .notB .relatedEncodings) ∧
  (∀ hw1 hw2 : Half, hw1.extractLsb' 11 5 = 0b11110#5 → hw2.extractLsb' 14 2 ≠ 0b10#2 →
    decodeT32 hw1 hw2 = .notB .notBPattern) ∧
  (∀ (s : State) (bytes : List Byte) (reason : NotB), ¬s.Final → s.Admissible →
    fetch s = some bytes → decode s.t bytes = .notB reason → step s = .refused (.notB reason))

/-- O7. The length of a T32 instruction (R71): 32 bits exactly when `hw1[15:11]` is 11101, 11110 or
11111, and the encodings of `B` agree with it. -/
def Obligations.LengthOfT32Instruction : Prop :=
  (∀ hw1 : Half, isWideT32 hw1 = true ↔
    hw1.toNat / 2048 = 0b11101 ∨ hw1.toNat / 2048 = 0b11110 ∨ hw1.toNat / 2048 = 0b11111) ∧
  (∀ (i : Instr) (b0 b1 : Byte) (more : List Byte), i.set = .t32 → encode i = b0 :: b1 :: more →
    (isWideT32 (leHalf b0 b1) = true ↔ i.ilen = 4)) ∧
  (∀ i : Instr, (encode i).length = i.ilen)

/-! ## Offsets -/

/-- O8. `imm32` of A1 (R66). -/
def Obligations.OffsetOfA1 : Prop :=
  ∀ imm24 : BitVec 24,
    imm32A1 imm24 = (imm24 ++ 0b00#2 : BitVec 26).signExtend 32 ∧
    (imm32A1 imm24).extractLsb' 0 2 = 0b00#2 ∧
    (imm32A1 imm24).extractLsb' 2 24 = imm24 ∧
    (∀ k, 26 ≤ k → k < 32 → (imm32A1 imm24).getLsbD k = imm24.getLsbD 23) ∧
    (imm32A1 imm24).toInt = 4 * imm24.toInt ∧
    -33554432 ≤ (imm32A1 imm24).toInt ∧ (imm32A1 imm24).toInt ≤ 33554428

/-- O9. `imm32` of T1 (R67). -/
def Obligations.OffsetOfT1 : Prop :=
  ∀ imm8 : BitVec 8,
    imm32T1 imm8 = (imm8 ++ 0b0#1 : BitVec 9).signExtend 32 ∧
    (imm32T1 imm8).getLsbD 0 = false ∧
    (imm32T1 imm8).extractLsb' 1 8 = imm8 ∧
    (∀ k, 9 ≤ k → k < 32 → (imm32T1 imm8).getLsbD k = imm8.getLsbD 7) ∧
    (imm32T1 imm8).toInt = 2 * imm8.toInt ∧
    -256 ≤ (imm32T1 imm8).toInt ∧ (imm32T1 imm8).toInt ≤ 254

/-- O10. `imm32` of T2 (R68). -/
def Obligations.OffsetOfT2 : Prop :=
  ∀ imm11 : BitVec 11,
    imm32T2 imm11 = (imm11 ++ 0b0#1 : BitVec 12).signExtend 32 ∧
    (imm32T2 imm11).getLsbD 0 = false ∧
    (imm32T2 imm11).extractLsb' 1 11 = imm11 ∧
    (∀ k, 12 ≤ k → k < 32 → (imm32T2 imm11).getLsbD k = imm11.getLsbD 10) ∧
    (imm32T2 imm11).toInt = 2 * imm11.toInt ∧
    -2048 ≤ (imm32T2 imm11).toInt ∧ (imm32T2 imm11).toInt ≤ 2046

/-- O11. `imm32` of T3 (R69): `J2` is bit 19 and `J1` bit 18, as they are. -/
def Obligations.OffsetOfT3 : Prop :=
  ∀ (S : Bit) (imm6 : BitVec 6) (J1 J2 : Bit) (imm11 : BitVec 11),
    imm32T3 S imm6 J1 J2 imm11 =
      (S ++ J2 ++ J1 ++ imm6 ++ imm11 ++ 0b0#1 : BitVec 21).signExtend 32 ∧
    (imm32T3 S imm6 J1 J2 imm11).getLsbD 0 = false ∧
    (imm32T3 S imm6 J1 J2 imm11).extractLsb' 1 11 = imm11 ∧
    (imm32T3 S imm6 J1 J2 imm11).extractLsb' 12 6 = imm6 ∧
    (imm32T3 S imm6 J1 J2 imm11).extractLsb' 18 1 = J1 ∧
    (imm32T3 S imm6 J1 J2 imm11).extractLsb' 19 1 = J2 ∧
    (imm32T3 S imm6 J1 J2 imm11).extractLsb' 20 1 = S ∧
    (∀ k, 21 ≤ k → k < 32 → (imm32T3 S imm6 J1 J2 imm11).getLsbD k = S.getLsbD 0) ∧
    (imm32T3 S imm6 J1 J2 imm11).toInt % 2 = 0 ∧
    -1048576 ≤ (imm32T3 S imm6 J1 J2 imm11).toInt ∧ (imm32T3 S imm6 J1 J2 imm11).toInt ≤ 1048574

/-- O12. `imm32` of T4 (R70): `I1` is bit 23 and `I2` bit 22, each 1 exactly when `J1`, `J2` equals `S`. -/
def Obligations.OffsetOfT4 : Prop :=
  ∀ (S : Bit) (imm10 : BitVec 10) (J1 J2 : Bit) (imm11 : BitVec 11),
    imm32T4 S imm10 J1 J2 imm11 =
      (S ++ ~~~(J1 ^^^ S) ++ ~~~(J2 ^^^ S) ++ imm10 ++ imm11 ++ 0b0#1 : BitVec 25).signExtend 32 ∧
    (imm32T4 S imm10 J1 J2 imm11).getLsbD 0 = false ∧
    (imm32T4 S imm10 J1 J2 imm11).extractLsb' 1 11 = imm11 ∧
    (imm32T4 S imm10 J1 J2 imm11).extractLsb' 12 10 = imm10 ∧
    ((imm32T4 S imm10 J1 J2 imm11).getLsbD 22 = true ↔ J2 = S) ∧
    ((imm32T4 S imm10 J1 J2 imm11).getLsbD 23 = true ↔ J1 = S) ∧
    (imm32T4 S imm10 J1 J2 imm11).extractLsb' 24 1 = S ∧
    (∀ k, 25 ≤ k → k < 32 → (imm32T4 S imm10 J1 J2 imm11).getLsbD k = S.getLsbD 0) ∧
    (imm32T4 S imm10 J1 J2 imm11).toInt % 2 = 0 ∧
    -16777216 ≤ (imm32T4 S imm10 J1 J2 imm11).toInt ∧
    (imm32T4 S imm10 J1 J2 imm11).toInt ≤ 16777214

/-- O13. The value read from `PC` (R21). -/
def Obligations.ValueReadFromPc : Prop :=
  ∀ s : State,
    (s.t = .a32 → (pcRead s).toNat = (s.pc.toNat + 8) % 4294967296) ∧
    (s.t = .t32 → (pcRead s).toNat = (s.pc.toNat + 4) % 4294967296)

/-! ## Conditions and the IT-state -/

/-- O14. The condition table (R102): the fifteen rows with their field values and suffixes, the inversion
by `cond[0]`, and 1111 naming no condition. -/
def Obligations.ConditionTable : Prop :=
  (∀ s : State,
    (conditionHolds .eq s = true ↔ s.z = true) ∧
    (conditionHolds .ne s = true ↔ s.z = false) ∧
    (conditionHolds .cs s = true ↔ s.c = true) ∧
    (conditionHolds .cc s = true ↔ s.c = false) ∧
    (conditionHolds .mi s = true ↔ s.n = true) ∧
    (conditionHolds .pl s = true ↔ s.n = false) ∧
    (conditionHolds .vs s = true ↔ s.v = true) ∧
    (conditionHolds .vc s = true ↔ s.v = false) ∧
    (conditionHolds .hi s = true ↔ s.c = true ∧ s.z = false) ∧
    (conditionHolds .ls s = true ↔ s.c = false ∨ s.z = true) ∧
    (conditionHolds .ge s = true ↔ s.n = s.v) ∧
    (conditionHolds .lt s = true ↔ s.n ≠ s.v) ∧
    (conditionHolds .gt s = true ↔ s.z = false ∧ s.n = s.v) ∧
    (conditionHolds .le s = true ↔ s.z = true ∨ s.n ≠ s.v) ∧
    conditionHolds .al s = true) ∧
  (∀ (s : State) (c d : Cond), c.bits.extractLsb' 1 3 = d.bits.extractLsb' 1 3 →
    c.bits.getLsbD 0 = false → d.bits.getLsbD 0 = true →
    conditionHolds d s = !conditionHolds c s) ∧
  (∀ r ∈ [(0b0000#4, ["EQ"], Cond.eq), (0b0001#4, ["NE"], .ne), (0b0010#4, ["CS", "HS"], .cs),
      (0b0011#4, ["CC", "LO"], .cc), (0b0100#4, ["MI"], .mi), (0b0101#4, ["PL"], .pl),
      (0b0110#4, ["VS"], .vs), (0b0111#4, ["VC"], .vc), (0b1000#4, ["HI"], .hi),
      (0b1001#4, ["LS"], .ls), (0b1010#4, ["GE"], .ge), (0b1011#4, ["LT"], .lt),
      (0b1100#4, ["GT"], .gt), (0b1101#4, ["LE"], .le), (0b1110#4, ["AL", ""], .al)],
    Cond.ofBits r.1 = some r.2.2 ∧ ∀ suffix ∈ r.2.1, condOfSuffix suffix = some r.2.2) ∧
  (∀ b : BitVec 4, Cond.ofBits b = none ↔ b = 0b1111#4)

/-- O15. The current condition (R101): the `cond` field of A1, T1, T3; `ITSTATE[7:4]` or `AL` for T2 and
T4, which refuse 1111; and a `B` branches exactly when its current condition holds. -/
def Obligations.CurrentCondition : Prop :=
  ∀ s : State,
    (∀ cond imm24, currentCond (.bA1 cond imm24) s = some cond) ∧
    (∀ cond imm8, currentCond (.bT1 cond imm8) s = some cond) ∧
    (∀ S cond imm6 J1 J2 imm11, currentCond (.bT3 S cond imm6 J1 J2 imm11) s = some cond) ∧
    (∀ i : Instr, ((∃ imm11, i = .bT2 imm11) ∨ ∃ S imm10 J1 J2 imm11, i = .bT4 S imm10 J1 J2 imm11) →
      (s.itstate.extractLsb' 0 4 = 0b0000#4 → currentCond i s = some .al) ∧
      (s.itstate.extractLsb' 0 4 ≠ 0b0000#4 →
        ∀ cond, currentCond i s = some cond ↔ cond.bits = s.itstate.extractLsb' 4 4) ∧
      (s.t = .t32 → s.itstate = 0b11111000#8 → exec i s = .refused .itConditionReserved)) ∧
    (∀ (i : Instr) (cond : Cond) (s' : State), pcAligned s = true → currentCond i s = some cond →
      exec i s = .next s' →
      s'.pc =
        if conditionHolds cond s then pcRead s + imm32 i else s.pc + BitVec.ofNat 32 i.ilen)

/-- O16. `InITBlock()` and `LastInITBlock()` (R104). -/
def Obligations.ItBlockTests : Prop :=
  ∀ s : State,
    (inITBlock s = true ↔ s.itstate.toNat % 16 ≠ 0) ∧
    (lastInITBlock s = true ↔ s.itstate.toNat % 16 = 8)

/-- O17. `ITAdvance()` (R105): its effect, and that every T32 `B` with a next state does it, taken or not,
and an A32 one does not. -/
def Obligations.ItAdvanceEffect : Prop :=
  (∀ it : BitVec 8,
    (it.extractLsb' 0 3 = 0b000#3 → itAdvanceValue it = 0#8) ∧
    (it.extractLsb' 0 3 ≠ 0b000#3 →
      (itAdvanceValue it).extractLsb' 5 3 = it.extractLsb' 5 3 ∧
      (itAdvanceValue it).extractLsb' 0 5 = it.extractLsb' 0 5 <<< 1)) ∧
  (∀ (i : Instr) (s s' : State), exec i s = .next s' →
    (s.t = .t32 → s'.itstate = itAdvanceValue s.itstate) ∧ (s.t = .a32 → s'.itstate = s.itstate))

/-! ## The program counter -/

/-- O18. `BranchWritePC` (R103): the low bits are forced to zero, the instruction set and everything else
stay, and the branch type has no effect. -/
def Obligations.BranchWritePcEffect : Prop :=
  ∀ (address : Word) (b : BranchType) (s : State),
    (s.t = .a32 →
      branchWritePC address b s = { s with pc := BitVec.ofNat 32 (address.toNat / 4 * 4) }) ∧
    (s.t = .t32 →
      branchWritePC address b s = { s with pc := BitVec.ofNat 32 (address.toNat / 2 * 2) })

/-- O19. The arithmetic of the target (R112): a taken `B` goes to the instruction's address plus the read
offset plus the signed `imm32`, modulo 2^32, and writes no flag. -/
def Obligations.TargetArithmetic : Prop :=
  ∀ (i : Instr) (cond : Cond) (s : State), i.wellFormed = true → s.t = i.set →
    pcAligned s = true → ItPlaced i s → currentCond i s = some cond →
    conditionHolds cond s = true →
    ∃ s', exec i s = .next s' ∧
      (s'.pc.toNat : Int) =
        (s.pc.toNat + (match s.t with | .a32 => 8 | .t32 => 4) + (imm32 i).toInt) % 4294967296 ∧
      s'.n = s.n ∧ s'.z = s.z ∧ s'.c = s.c ∧ s'.v = s.v

/-- O20. A failed condition (R106): the instruction is a no-op that advances `pc` by its length, with
`ITAdvance` in T32, and is refused where the advance would pass the top of the address space. -/
def Obligations.ConditionFailed : Prop :=
  (∀ i : Instr, i.ilen =
    match i with
    | .bA1 _ _ => 4
    | .bT1 _ _ => 2
    | .bT2 _ => 2
    | .bT3 _ _ _ _ _ _ => 4
    | .bT4 _ _ _ _ _ => 4) ∧
  (∀ (i : Instr) (cond : Cond) (s : State), i.wellFormed = true → s.t = i.set →
    ItPlaced i s →
    currentCond i s = some cond → conditionHolds cond s = false →
    (s.pc.toNat + i.ilen < 4294967296 →
      exec i s = .next { s with
        pc := s.pc + BitVec.ofNat 32 i.ilen
        itstate := match s.t with | .a32 => s.itstate | .t32 => itAdvanceValue s.itstate }) ∧
    (4294967296 ≤ s.pc.toNat + i.ilen → exec i s = .refused .pastTopOfAddressSpace))

/-! ## The five instructions -/

/-- O21. `B` encoding A1 (R107): its operation, the offsets of the rule's corner cases, its encoding and
its syntax. -/
def Obligations.BranchA1 : Prop :=
  (∀ (cond : Cond) (imm24 : BitVec 24) (s : State), s.t = .a32 → pcAligned s = true →
    (conditionHolds cond s = true →
      exec (.bA1 cond imm24) s =
        .next { s with pc := s.pc + 8#32 + (imm24 ++ 0b00#2 : BitVec 26).signExtend 32 }) ∧
    (conditionHolds cond s = false → s.pc.toNat + 4 < 4294967296 →
      exec (.bA1 cond imm24) s = .next { s with pc := s.pc + 4#32 }) ∧
    (conditionHolds cond s = false → 4294967296 ≤ s.pc.toNat + 4 →
      exec (.bA1 cond imm24) s = .refused .pastTopOfAddressSpace)) ∧
  (imm32A1 0x000000#24).toInt = 0 ∧ (imm32A1 0xFFFFFF#24).toInt = -4 ∧
  (imm32A1 0xFFFFFE#24).toInt = -8 ∧ (imm32A1 0x800000#24).toInt = -33554432 ∧
  (imm32A1 0x7FFFFF#24).toInt = 33554428 ∧
  (∀ cond imm24, encode (.bA1 cond imm24) = wordBytes (cond.bits ++ 0b1010#4 ++ imm24)) ∧
  templates .a1 = [⟨.optional, .optional, ""⟩]

/-- O22. `B` encoding T1 (R108): its operation, UNPREDICTABLE inside an IT block, the offsets of the
rule's corner cases, its encoding and its syntax. -/
def Obligations.BranchT1 : Prop :=
  (∀ (cond : Cond) (imm8 : BitVec 8) (s : State), s.t = .t32 → pcAligned s = true → cond ≠ .al →
    (s.itstate.extractLsb' 0 4 ≠ 0b0000#4 → exec (.bT1 cond imm8) s = .refused .unpredictable) ∧
    (s.itstate.extractLsb' 0 4 = 0b0000#4 → conditionHolds cond s = true →
      exec (.bT1 cond imm8) s =
        .next { s with
          pc := s.pc + 4#32 + (imm8 ++ 0b0#1 : BitVec 9).signExtend 32
          itstate := 0#8 }) ∧
    (s.itstate.extractLsb' 0 4 = 0b0000#4 → conditionHolds cond s = false →
      s.pc.toNat + 2 < 4294967296 →
      exec (.bT1 cond imm8) s = .next { s with pc := s.pc + 2#32, itstate := 0#8 }) ∧
    (s.itstate.extractLsb' 0 4 = 0b0000#4 → conditionHolds cond s = false →
      4294967296 ≤ s.pc.toNat + 2 →
      exec (.bT1 cond imm8) s = .refused .pastTopOfAddressSpace)) ∧
  (imm32T1 0x00#8).toInt = 0 ∧ (imm32T1 0xFF#8).toInt = -2 ∧ (imm32T1 0xFE#8).toInt = -4 ∧
  (imm32T1 0x80#8).toInt = -256 ∧ (imm32T1 0x7F#8).toInt = 254 ∧
  (∀ cond imm8, encode (.bT1 cond imm8) = halfBytes (0b1101#4 ++ cond.bits ++ imm8)) ∧
  templates .t1 = [⟨.required, .optional, "Not permitted in IT block"⟩]

/-- O23. `B` encoding T2 (R109): its operation, with the condition of the IT-state when it is last in an
IT block and none outside one, its two refusals, the offsets of the rule's corner cases, its encoding and
its syntax. -/
def Obligations.BranchT2 : Prop :=
  (∀ (imm11 : BitVec 11) (s : State), s.t = .t32 → pcAligned s = true →
    (s.itstate.extractLsb' 0 4 ≠ 0b0000#4 → s.itstate.extractLsb' 0 4 ≠ 0b1000#4 →
      exec (.bT2 imm11) s = .refused .unpredictable) ∧
    (s.itstate.extractLsb' 0 4 = 0b1000#4 → s.itstate.extractLsb' 4 4 = 0b1111#4 →
      exec (.bT2 imm11) s = .refused .itConditionReserved) ∧
    (∀ cond : Cond,
      (s.itstate.extractLsb' 0 4 = 0b0000#4 ∧ cond = .al ∨
        s.itstate.extractLsb' 0 4 = 0b1000#4 ∧ s.itstate.extractLsb' 4 4 = cond.bits) →
      (conditionHolds cond s = true →
        exec (.bT2 imm11) s =
          .next { s with
            pc := s.pc + 4#32 + (imm11 ++ 0b0#1 : BitVec 12).signExtend 32
            itstate := 0#8 }) ∧
      (conditionHolds cond s = false → s.pc.toNat + 2 < 4294967296 →
        exec (.bT2 imm11) s = .next { s with pc := s.pc + 2#32, itstate := 0#8 }) ∧
      (conditionHolds cond s = false → 4294967296 ≤ s.pc.toNat + 2 →
        exec (.bT2 imm11) s = .refused .pastTopOfAddressSpace))) ∧
  (imm32T2 0x7FE#11).toInt = -4 ∧ (imm32T2 0x7FF#11).toInt = -2 ∧ (imm32T2 0x000#11).toInt = 0 ∧
  (imm32T2 0x400#11).toInt = -2048 ∧ (imm32T2 0x3FF#11).toInt = 2046 ∧
  (∀ imm11, encode (.bT2 imm11) = halfBytes (0b11100#5 ++ imm11)) ∧
  templates .t2 = [⟨.optional, .optional, "Outside or last in IT block"⟩]

/-- O24. `B` encoding T3 (R110): its operation, UNPREDICTABLE inside an IT block, the offsets of the
rule's corner cases, its encoding and its syntax. -/
def Obligations.BranchT3 : Prop :=
  (∀ (S : Bit) (cond : Cond) (imm6 : BitVec 6) (J1 J2 : Bit) (imm11 : BitVec 11) (s : State),
    s.t = .t32 → pcAligned s = true → cond ≠ .al →
    (s.itstate.extractLsb' 0 4 ≠ 0b0000#4 →
      exec (.bT3 S cond imm6 J1 J2 imm11) s = .refused .unpredictable) ∧
    (s.itstate.extractLsb' 0 4 = 0b0000#4 → conditionHolds cond s = true →
      exec (.bT3 S cond imm6 J1 J2 imm11) s =
        .next { s with
          pc := s.pc + 4#32 +
            (S ++ J2 ++ J1 ++ imm6 ++ imm11 ++ 0b0#1 : BitVec 21).signExtend 32
          itstate := 0#8 }) ∧
    (s.itstate.extractLsb' 0 4 = 0b0000#4 → conditionHolds cond s = false →
      s.pc.toNat + 4 < 4294967296 →
      exec (.bT3 S cond imm6 J1 J2 imm11) s = .next { s with pc := s.pc + 4#32, itstate := 0#8 }) ∧
    (s.itstate.extractLsb' 0 4 = 0b0000#4 → conditionHolds cond s = false →
      4294967296 ≤ s.pc.toNat + 4 →
      exec (.bT3 S cond imm6 J1 J2 imm11) s = .refused .pastTopOfAddressSpace)) ∧
  (imm32T3 0#1 0#6 0#1 0#1 0#11).toInt = 0 ∧
  (imm32T3 1#1 0x3F#6 1#1 1#1 0x7FE#11).toInt = -4 ∧
  (imm32T3 0#1 0#6 1#1 0#1 0#11).toInt = 262144 ∧ (imm32T3 0#1 0#6 0#1 1#1 0#11).toInt = 524288 ∧
  (imm32T3 1#1 0#6 0#1 0#1 0#11).toInt = -1048576 ∧
  (imm32T3 0#1 0x3F#6 1#1 1#1 0x7FF#11).toInt = 1048574 ∧
  (∀ S cond imm6 J1 J2 imm11, encode (.bT3 S cond imm6 J1 J2 imm11) =
    halfBytes (0b11110#5 ++ S ++ cond.bits ++ imm6) ++
      halfBytes (0b10#2 ++ J1 ++ 0b0#1 ++ J2 ++ imm11)) ∧
  (templates .t3).map (fun m => (m.cond, m.qual)) = [(.required, .wide), (.required, .optional)]

/-- O25. `B` encoding T4 (R111): its operation, with the condition of the IT-state when it is last in an
IT block and none outside one, its two refusals, the offsets of the rule's corner cases, its encoding and
its syntax. -/
def Obligations.BranchT4 : Prop :=
  (∀ (S : Bit) (imm10 : BitVec 10) (J1 J2 : Bit) (imm11 : BitVec 11) (s : State),
    s.t = .t32 → pcAligned s = true →
    (s.itstate.extractLsb' 0 4 ≠ 0b0000#4 → s.itstate.extractLsb' 0 4 ≠ 0b1000#4 →
      exec (.bT4 S imm10 J1 J2 imm11) s = .refused .unpredictable) ∧
    (s.itstate.extractLsb' 0 4 = 0b1000#4 → s.itstate.extractLsb' 4 4 = 0b1111#4 →
      exec (.bT4 S imm10 J1 J2 imm11) s = .refused .itConditionReserved) ∧
    (∀ cond : Cond,
      (s.itstate.extractLsb' 0 4 = 0b0000#4 ∧ cond = .al ∨
        s.itstate.extractLsb' 0 4 = 0b1000#4 ∧ s.itstate.extractLsb' 4 4 = cond.bits) →
      (conditionHolds cond s = true →
        exec (.bT4 S imm10 J1 J2 imm11) s =
          .next { s with
            pc := s.pc + 4#32 +
              (S ++ ~~~(J1 ^^^ S) ++ ~~~(J2 ^^^ S) ++ imm10 ++ imm11 ++ 0b0#1 : BitVec 25).signExtend 32
            itstate := 0#8 }) ∧
      (conditionHolds cond s = false → s.pc.toNat + 4 < 4294967296 →
        exec (.bT4 S imm10 J1 J2 imm11) s = .next { s with pc := s.pc + 4#32, itstate := 0#8 }) ∧
      (conditionHolds cond s = false → 4294967296 ≤ s.pc.toNat + 4 →
        exec (.bT4 S imm10 J1 J2 imm11) s = .refused .pastTopOfAddressSpace))) ∧
  (imm32T4 0#1 0#10 1#1 1#1 0#11).toInt = 0 ∧ (imm32T4 0#1 0#10 0#1 0#1 0#11).toInt = 12582912 ∧
  (imm32T4 1#1 0x3FF#10 1#1 1#1 0x7FE#11).toInt = -4 ∧
  (imm32T4 1#1 0#10 0#1 0#1 0#11).toInt = -16777216 ∧
  (imm32T4 0#1 0x3FF#10 0#1 0#1 0x7FF#11).toInt = 16777214 ∧
  (∀ S imm10 J1 J2 imm11, encode (.bT4 S imm10 J1 J2 imm11) =
    halfBytes (0b11110#5 ++ S ++ imm10) ++ halfBytes (0b10#2 ++ J1 ++ 0b1#1 ++ J2 ++ imm11)) ∧
  (templates .t4).map (fun m => (m.cond, m.qual)) = [(.optional, .wide), (.optional, .optional)]

/-- O26. The UNPREDICTABLE cases (R114), for every value of the condition: T1 and T3 in an IT block, T2
and T4 in an IT block and not last, A1 never, and nothing else. -/
def Obligations.UnpredictableCases : Prop :=
  ∀ (i : Instr) (s : State), i.wellFormed = true →
    (exec i s = .refused .unpredictable ↔
      s.t = .t32 ∧
        match i with
        | .bA1 _ _ => False
        | .bT1 _ _ => s.itstate.toNat % 16 ≠ 0
        | .bT2 _ => s.itstate.toNat % 16 ≠ 0 ∧ s.itstate.toNat % 16 ≠ 8
        | .bT3 _ _ _ _ _ _ => s.itstate.toNat % 16 ≠ 0
        | .bT4 _ _ _ _ _ => s.itstate.toNat % 16 ≠ 0 ∧ s.itstate.toNat % 16 ≠ 8)

/-- O27. The frame of `B` in all five encodings (R26, which the spec marks as derived): only `pc` changes,
and in T32 state `ITSTATE` by `ITAdvance`; every byte reads as before. -/
def Obligations.FrameOfBranch : Prop :=
  ∀ (i : Instr) (s s' : State), exec i s = .next s' →
    s' = { s with
      pc := s'.pc
      itstate := match s.t with | .a32 => s.itstate | .t32 => itAdvanceValue s.itstate } ∧
    (∀ a, Memory.read s'.programText a = Memory.read s.programText a)

/-- O28. `B` raises no exception (R130, which the spec marks as derived): executing an instruction never
answers a fault. -/
def Obligations.BranchRaisesNoException : Prop :=
  ∀ (i : Instr) (s : State) (r : Fault), exec i s ≠ .fault r

/-- O29. An encoding executes only in its own instruction set, and T1 and T3 have no condition `AL`, whose
words belong to other instructions (R60, R75). The refusals are the model's (log entry 5). -/
def Obligations.MeaningsOutsideTheirEncoding : Prop :=
  (∀ (i : Instr) (s : State), s.t ≠ i.set → exec i s = .refused .wrongInstrSet) ∧
  (∀ (imm8 : BitVec 8) (s : State), s.t = .t32 → exec (.bT1 .al imm8) s = .refused (.notB .udf)) ∧
  (∀ (S : Bit) (imm6 : BitVec 6) (J1 J2 : Bit) (imm11 : BitVec 11) (s : State), s.t = .t32 →
    exec (.bT3 S .al imm6 J1 J2 imm11) s = .refused (.notB .relatedEncodings))

/-- O30. The corner cases common to all encodings (R116): a taken `B` with offset zero goes to `PCread`,
with minus the read offset to itself, with `ilen` minus the read offset to the next instruction; the
distance covered does not depend on the address; `AL` is taken whatever the
flags; and `BranchWritePC`'s forcing of the low bits changes nothing for `B` at an aligned `pc` (R103). The
spec marks these sentences as derived from its other rules. -/
def Obligations.CornerCasesOfBranch : Prop :=
  (∀ (i : Instr) (cond : Cond) (s s' : State), pcAligned s = true → currentCond i s = some cond →
    conditionHolds cond s = true → exec i s = .next s' →
    (imm32 i = 0#32 → s'.pc = pcRead s) ∧
    (imm32 i = 0#32 - pcReadOffset s.t → s'.pc = s.pc) ∧
    (imm32 i = BitVec.ofNat 32 i.ilen - pcReadOffset s.t → s'.pc = s.pc + BitVec.ofNat 32 i.ilen)) ∧
  (∀ (i : Instr) (s₁ s₂ s₁' s₂' : State), pcAligned s₁ = true → pcAligned s₂ = true →
    s₁.n = s₂.n → s₁.z = s₂.z → s₁.c = s₂.c → s₁.v = s₂.v → s₁.itstate = s₂.itstate →
    exec i s₁ = .next s₁' → exec i s₂ = .next s₂' →
    s₁'.pc - s₁.pc = s₂'.pc - s₂.pc) ∧
  (∀ s : State, conditionHolds .al s = true) ∧
  (∀ (i : Instr) (b : BranchType) (s : State), s.t = i.set → pcAligned s = true →
    branchWritePC (pcRead s + imm32 i) b s = { s with pc := pcRead s + imm32 i })

/-! ## The step -/

/-- O31. A step runs the decoded instruction (R100): at a state that is not final and admissible, whose
bytes at `pc` decode to an instruction, the step is `exec` of it and nothing more. -/
def Obligations.StepRunsDecodedInstruction : Prop :=
  ∀ (s : State) (i : Instr) (bytes rest : List Byte), ¬s.Final → s.Admissible →
    fetch s = some bytes → decode s.t bytes = .instr i rest → step s = exec i s

/-- O32. A step runs the instruction whose encoding stands at `pc` (R43, R60 to R65, R71, R100). -/
def Obligations.StepRunsEncodedInstruction : Prop :=
  ∀ (s : State) (i : Instr), ¬s.Final → s.Admissible → i.wellFormed = true → s.t = i.set →
    readBytes s.programText s.pc i.ilen = some (encode i) → step s = exec i s

/-- O33. The order of the checks (R134): the final state, then alignment, then the IT-state, then the
fetch, then the decoder, then the UNPREDICTABLE test whatever the condition, then the condition with the
refusals of 1111 and of an advance past the top of the address space. -/
def Obligations.OrderOfTheChecks : Prop :=
  ∀ s : State,
    (s.pc = s.haltAddr → step s = .fault .halted) ∧
    (s.pc ≠ s.haltAddr → pcAligned s = false → step s = .refused .misalignedPc) ∧
    (s.pc ≠ s.haltAddr → pcAligned s = true → itLegal s = false →
      step s = .refused .illegalItState) ∧
    (s.pc ≠ s.haltAddr → pcAligned s = true → itLegal s = true → fetch s = none →
      step s = .fault .fetchOutsideProgramText) ∧
    (∀ bytes r, s.pc ≠ s.haltAddr → pcAligned s = true → itLegal s = true →
      fetch s = some bytes → decode s.t bytes = .notB r → step s = .refused (.notB r)) ∧
    (∀ bytes i rest, s.pc ≠ s.haltAddr → pcAligned s = true → itLegal s = true →
      fetch s = some bytes → decode s.t bytes = .instr i rest →
      step s = exec i s ∧ (¬ItPlaced i s → step s = .refused .unpredictable) ∧
      (ItPlaced i s → currentCond i s = none → step s = .refused .itConditionReserved) ∧
      (∀ cond, ItPlaced i s → currentCond i s = some cond → conditionHolds cond s = false →
        4294967296 ≤ s.pc.toNat + i.ilen → step s = .refused .pastTopOfAddressSpace))

/-- O34. Why a step stops (R131): each fault and each refusal a step answers has the cause its rule gives
it (R25, R43, R44, R76, R101, R106, R114, R156), and no step answers a refusal the spec does not know. -/
def Obligations.CausesOfAStop : Prop :=
  ∀ s : State,
    (∀ f, step s = .fault f →
      match f with
      | .halted => s.pc = s.haltAddr
      | .fetchOutsideProgramText => fetch s = none) ∧
    (∀ r, step s = .refused r →
      match r with
      | .notModelled _ => False
      | .wrongInstrSet => False
      | .misalignedPc => pcAligned s = false
      | .illegalItState => itLegal s = false
      | .notB reason => ∃ bytes, fetch s = some bytes ∧ decode s.t bytes = .notB reason
      | .unpredictable => ∃ bytes i rest, fetch s = some bytes ∧ decode s.t bytes = .instr i rest ∧
          ¬ItPlaced i s
      | .itConditionReserved => s.itstate = 0xF8#8 ∧ ∃ bytes i rest, fetch s = some bytes ∧
          decode s.t bytes = .instr i rest ∧ currentCond i s = none
      | .pastTopOfAddressSpace => ∃ bytes i rest cond, fetch s = some bytes ∧
          decode s.t bytes = .instr i rest ∧ currentCond i s = some cond ∧
          conditionHolds cond s = false ∧ 4294967296 ≤ s.pc.toNat + i.ilen)

/-- O35. Alignment (R44): A32 needs `pc[1:0]` = 00 and T32 `pc[0]` = 0, and a state that violates it is
refused. -/
def Obligations.AlignmentOfPc : Prop :=
  ∀ s : State,
    (s.t = .a32 → (pcAligned s = true ↔ s.pc.toNat % 4 = 0)) ∧
    (s.t = .t32 → (pcAligned s = true ↔ s.pc.toNat % 2 = 0)) ∧
    (¬s.Final → pcAligned s = false → step s = .refused .misalignedPc)

/-- O36. Which IT-states are legal (R25): zero in A32; zero or a nonzero low half in T32; any other is
refused. -/
def Obligations.LegalItStates : Prop :=
  ∀ s : State,
    (s.t = .a32 → (itLegal s = true ↔ s.itstate.toNat = 0)) ∧
    (s.t = .t32 → (itLegal s = true ↔ s.itstate.toNat = 0 ∨ s.itstate.toNat % 16 ≠ 0)) ∧
    (¬s.Final → pcAligned s = true → itLegal s = false → step s = .refused .illegalItState)

/-- O37. The fetch and its byte order (R43): four bytes in A32, the byte at `pc` least significant; in
T32 two bytes, and two more when the first halfword says so, `hw1` at the lower address; none when a
byte needed is outside `ProgramText`, and then the machine is stuck. -/
def Obligations.FetchAndByteOrder : Prop :=
  (∀ (s : State) (b0 b1 b2 b3 : Byte), s.t = .a32 →
    Memory.read s.programText s.pc.toNat = some b0 →
    Memory.read s.programText (s.pc + 1#32).toNat = some b1 →
    Memory.read s.programText (s.pc + 2#32).toNat = some b2 →
    Memory.read s.programText (s.pc + 3#32).toNat = some b3 →
    fetch s = some [b0, b1, b2, b3]) ∧
  (∀ (s : State) (b0 b1 : Byte), s.t = .t32 →
    Memory.read s.programText s.pc.toNat = some b0 →
    Memory.read s.programText (s.pc + 1#32).toNat = some b1 →
    (isWideT32 (leHalf b0 b1) = false → fetch s = some [b0, b1]) ∧
    (∀ b2 b3 : Byte, isWideT32 (leHalf b0 b1) = true →
      Memory.read s.programText (s.pc + 2#32).toNat = some b2 →
      Memory.read s.programText (s.pc + 3#32).toNat = some b3 →
      fetch s = some [b0, b1, b2, b3]) ∧
    (isWideT32 (leHalf b0 b1) = true →
      (Memory.read s.programText (s.pc + 2#32).toNat = none ∨
        Memory.read s.programText (s.pc + 3#32).toNat = none) →
      fetch s = none)) ∧
  (∀ (s : State) (k : Nat), k < 2 ∨ (s.t = .a32 ∧ k < 4) →
    Memory.read s.programText (s.pc + BitVec.ofNat 32 k).toNat = none → fetch s = none) ∧
  (∀ s : State, ¬s.Final → s.Admissible → fetch s = none →
    step s = .fault .fetchOutsideProgramText) ∧
  (∀ b0 b1 b2 b3 : Byte,
    (leHalf b0 b1).toNat = b0.toNat + 256 * b1.toNat ∧
    (leWord b0 b1 b2 b3).toNat =
      b0.toNat + 256 * b1.toNat + 65536 * b2.toNat + 16777216 * b3.toNat) ∧
  leWord 0xFE#8 0xFF#8 0xFF#8 0xEA#8 = 0xEAFFFFFE#32 ∧ leHalf 0xFF#8 0xF7#8 = 0xF7FF#16 ∧
  leHalf 0xFE#8 0xBF#8 = 0xBFFE#16

/-- O38. An admissible state at an encoded `B` that obeys the placement rule of IT blocks and whose fall
through, if it falls through, stays in the address space has a next state (R100, R151, R154). -/
def Obligations.AdmittedStepCompletes : Prop :=
  ∀ (s : State) (i : Instr) (cond : Cond), ¬s.Final → s.Admissible → i.wellFormed = true →
    s.t = i.set → readBytes s.programText s.pc i.ilen = some (encode i) →
    ItPlaced i s →
    currentCond i s = some cond →
    (conditionHolds cond s = true ∨ s.pc.toNat + i.ilen < 4294967296) →
    step s = .next { s with
      pc := if conditionHolds cond s then pcRead s + imm32 i else s.pc + BitVec.ofNat 32 i.ilen
      itstate := 0#8 }

/-! ## Runs -/

/-- O39. Every step keeps the premises (a) and (b) of R151 and the canonical form of `ProgramText`. Premise
(c), that `ProgramText` is defined at `pc`, is not kept by a branch to an unmapped target (R139). -/
def Obligations.StepKeepsInv : Prop :=
  ∀ s s' : State, s.Inv → step s = .next s' → s'.Inv

/-- O40. The state the model starts from meets the invariant; its values are the model's (log entry 1). -/
def Obligations.ResetHasInv : Prop := State.reset.Inv

/-- O41. Nothing in scope writes the flags, `T`, `ProgramText` or `HaltAddr`: after any number of steps
they are as at launch (R23, R24, R45, R150). -/
def Obligations.RunKeepsLaunchValues : Prop :=
  ∀ (k : Nat) (s s' : State), run k s = .next s' →
    s'.n = s.n ∧ s'.z = s.z ∧ s'.c = s.c ∧ s'.v = s.v ∧ s'.t = s.t ∧
    s'.programText = s.programText ∧ s'.haltAddr = s.haltAddr

/-- O42. A step sees only the bytes it fetches (R41, R43, R139): with another `ProgramText` that holds the
same bytes there, the same thing happens, so what stands at the target does not matter to the `B`. -/
def Obligations.StepSeesOnlyFetchedBytes : Prop :=
  ∀ (s : State) (m : Memory) (bytes : List Byte), fetch s = some bytes →
    fetch { s with programText := m } = some bytes →
    step { s with programText := m } =
      match step s with
      | .next s' => .next { s' with programText := m }
      | .fault f => .fault f
      | .refused r => .refused r

/-- O43. The end of a run (R156): at `pc` = `HaltAddr` no step is taken, whatever the bytes there; a state
that is not final and has no next state is no end of run; a `B` to itself whose condition holds, outside
an IT block or last in one, leaves all but `ITSTATE` as it was, so its run never ends. -/
def Obligations.EndAndHangOfARun : Prop :=
  (∀ s : State, s.Final → step s = .fault .halted ∧ EndsWell s) ∧
  (∀ s : State, ¬s.Final → (∀ s', step s ≠ .next s') → ¬EndsWell s) ∧
  (∀ (s : State) (i : Instr) (cond : Cond), ¬s.Final → s.Admissible → ItPlaced i s →
    i.wellFormed = true → s.t = i.set → readBytes s.programText s.pc i.ilen = some (encode i) →
    imm32 i = 0#32 - pcReadOffset s.t → currentCond i s = some cond → conditionHolds cond s = true →
    step s = .next { s with itstate := 0#8 } ∧ Hangs s ∧ ¬EndsWell s)

/-! ## The assembler side -/

/-- O44. The inverse of the immediate assembly (R72): a permitted offset is put back together by the
decode block, every instruction's offset is permitted, and the fields are got back from it; a small offset
of either sign has `J1` = `J2` = 1 in T4 (R70). The spec marks all of this as derived. -/
def Obligations.ImmediateAssemblyInverse : Prop :=
  (∀ (e : Encoding) (cond : Cond) (o : Word), permits e o = true →
    imm32 (assembleFields e cond o) = o) ∧
  (∀ cond imm24, permits .a1 (imm32A1 imm24) = true ∧
    assembleFields .a1 cond (imm32A1 imm24) = .bA1 cond imm24) ∧
  (∀ cond imm8, permits .t1 (imm32T1 imm8) = true ∧
    assembleFields .t1 cond (imm32T1 imm8) = .bT1 cond imm8) ∧
  (∀ cond imm11, permits .t2 (imm32T2 imm11) = true ∧
    assembleFields .t2 cond (imm32T2 imm11) = .bT2 imm11) ∧
  (∀ S cond imm6 J1 J2 imm11, permits .t3 (imm32T3 S imm6 J1 J2 imm11) = true ∧
    assembleFields .t3 cond (imm32T3 S imm6 J1 J2 imm11) = .bT3 S cond imm6 J1 J2 imm11) ∧
  (∀ S cond imm10 J1 J2 imm11, permits .t4 (imm32T4 S imm10 J1 J2 imm11) = true ∧
    assembleFields .t4 cond (imm32T4 S imm10 J1 J2 imm11) = .bT4 S imm10 J1 J2 imm11 ∧
    (S = 0#1 → (imm32T4 S imm10 J1 J2 imm11).extractLsb' 22 2 = 0b00#2 → J1 = 1#1 ∧ J2 = 1#1) ∧
    (S = 1#1 → (imm32T4 S imm10 J1 J2 imm11).extractLsb' 22 2 = 0b11#2 → J1 = 1#1 ∧ J2 = 1#1))

/-- O45. Which encoding the assembler selects (R82). -/
def Obligations.EncodingSelection : Prop :=
  ∀ (s : State) (o : Word),
    (∀ cond q, s.t = .a32 → q ≠ .narrow → permits .a1 o = true →
      selectEncoding s cond q o = some .a1) ∧
    (∀ cond, s.t = .t32 → s.itstate.extractLsb' 0 4 = 0b0000#4 → cond ≠ .al →
      (permits .t1 o = true → selectEncoding s cond .omitted o = some .t1) ∧
      (permits .t1 o = false → permits .t3 o = true →
        selectEncoding s cond .omitted o = some .t3) ∧
      (permits .t3 o = true → selectEncoding s cond .wide o = some .t3)) ∧
    (∀ cond, s.t = .t32 →
      (s.itstate.extractLsb' 0 4 = 0b0000#4 ∧ cond = .al ∨
        s.itstate.extractLsb' 0 4 = 0b1000#4 ∧ s.itstate.extractLsb' 4 4 = cond.bits) →
      (permits .t2 o = true → selectEncoding s cond .omitted o = some .t2) ∧
      (permits .t2 o = false → permits .t4 o = true →
        selectEncoding s cond .omitted o = some .t4) ∧
      (permits .t4 o = true → selectEncoding s cond .wide o = some .t4))

/-- O46. What the assembler writes reaches the label (R72, R79, R81, R82, R107 to R111): the instruction
is well formed, belongs to the instruction set in force, and when its condition holds executing it
takes `pc` to the label. -/
def Obligations.AssembledBranchReachesLabel : Prop :=
  ∀ (s : State) (c : Option Cond) (q : Qualifier) (label : Word) (i : Instr), s.Admissible →
    assemble s c q label = some i →
    i.wellFormed = true ∧ i.set = s.t ∧
    (conditionHolds (c.getD .al) s = true →
      exec i s = .next { s with pc := label, itstate := 0#8 })

/-- O47. The canonical disassembly (R84): the line of each encoding, and that the disassembly of an
assembled branch shows its label and, but for T4, the condition it was written with (R79, R81). The
spec marks R84 as derived, and gives no line of T2 inside an IT block: there the condition of the
block is the model's choice (log entry 11). -/
def Obligations.DisassemblyShowsLabel : Prop :=
  (∀ (s : State) (b : Bool),
    (∀ cond imm24, disassemble b s (.bA1 cond imm24) =
      ⟨if cond = .al then none else some cond, .omitted, pcRead s + imm32A1 imm24⟩) ∧
    (∀ cond imm8, disassemble b s (.bT1 cond imm8) =
      ⟨some cond, if b = true then .narrow else .omitted, pcRead s + imm32T1 imm8⟩) ∧
    (∀ imm11, s.itstate.extractLsb' 0 4 = 0b0000#4 → disassemble b s (.bT2 imm11) =
      ⟨none, .omitted, pcRead s + imm32T2 imm11⟩) ∧
    (∀ S cond imm6 J1 J2 imm11, disassemble b s (.bT3 S cond imm6 J1 J2 imm11) =
      ⟨some cond, .wide, pcRead s + imm32T3 S imm6 J1 J2 imm11⟩) ∧
    (∀ S imm10 J1 J2 imm11, disassemble b s (.bT4 S imm10 J1 J2 imm11) =
      ⟨none, .wide, pcRead s + imm32T4 S imm10 J1 J2 imm11⟩)) ∧
  (∀ (s : State) (c : Option Cond) (q : Qualifier) (label : Word) (i : Instr) (b : Bool),
    assemble s c q label = some i →
    (disassemble b s i).target = label ∧
    (disassemble b s i).cond =
      match i with
      | .bA1 _ _ => printedCond (c.getD .al)
      | .bT1 _ _ => printedCond (c.getD .al)
      | .bT2 _ => printedCond (c.getD .al)
      | .bT3 _ _ _ _ _ _ => printedCond (c.getD .al)
      | .bT4 _ _ _ _ _ => none)

/-! ## After a step -/

/-- O48. After every step the IT-state is zero and `pc` is aligned, so `B` cannot branch to a misaligned
target and ends the IT block it is last in. The spec marks both as derived (R44, R105, R113). -/
def Obligations.StateAfterAStep : Prop :=
  ∀ s s' : State, step s = .next s' → s'.itstate = 0#8 ∧ pcAligned s' = true
end

