-- ==== Sys2Proof/Laws/Decode.lean ====
section
/-! SUPPORT. Bytes and halfwords are put together as they are taken apart, and the decoder of each set
reads back the fields the encoder wrote. -/

namespace Sys2Proof

theorem Cond.ofBits_bits (c : Cond) : Cond.ofBits c.bits = some c := by
  cases c <;> decide

theorem Cond.bits_of_ofBits {b : BitVec 4} {c : Cond} (h : Cond.ofBits b = some c) : c.bits = b := by
  simpa using List.find?_some h

theorem leHalf_halves (h : Half) : leHalf (h.extractLsb' 0 8) (h.extractLsb' 8 8) = h := by
  unfold leHalf
  rw [BitVec.extractLsb'_append_extractLsb'_eq_extractLsb' (by omega)]
  simp

theorem leWord_quarters (w : Word) :
    leWord (w.extractLsb' 0 8) (w.extractLsb' 8 8) (w.extractLsb' 16 8) (w.extractLsb' 24 8) = w := by
  unfold leWord
  rw [BitVec.extractLsb'_append_extractLsb'_eq_extractLsb' (by omega),
    BitVec.extractLsb'_append_extractLsb'_eq_extractLsb' (by omega),
    BitVec.extractLsb'_append_extractLsb'_eq_extractLsb' (by omega)]
  simp

theorem decodeA32_encodeA1 (cond : Cond) (imm24 : BitVec 24) :
    decodeA32 (encodeA1 cond imm24) = .isB (.bA1 cond imm24) := by
  have h1 : (encodeA1 cond imm24).extractLsb' 25 3 = 0b101#3 := by
    unfold encodeA1
    rw [BitVec.extractLsb'_append_eq_of_le (by omega), BitVec.extractLsb'_append_eq_of_le (by omega),
      BitVec.extractLsb'_append_eq_of_add_le (by omega)]
    simp
  have h2 : (encodeA1 cond imm24).extractLsb' 24 1 = 0b0#1 := by
    unfold encodeA1
    rw [BitVec.extractLsb'_append_eq_of_le (by omega),
      BitVec.extractLsb'_append_eq_of_add_le (by omega)]
    simp
  have h3 : (encodeA1 cond imm24).extractLsb' 28 4 = cond.bits := by
    unfold encodeA1
    rw [BitVec.extractLsb'_append_eq_of_le (by omega), BitVec.extractLsb'_append_eq_of_le (by omega),
      BitVec.extractLsb'_append_eq_of_le (by omega)]
    simp
  have h4 : (encodeA1 cond imm24).extractLsb' 0 24 = imm24 := by
    unfold encodeA1
    rw [BitVec.extractLsb'_append_eq_of_add_le (by omega)]
    simp
  simp [decodeA32, h1, h2, h3, h4, Cond.ofBits_bits]

theorem isWideT32_encodeT1 (cond : Cond) (imm8 : BitVec 8) : isWideT32 (encodeT1 cond imm8) = false := by
  have h : (encodeT1 cond imm8).extractLsb' 11 5 = (0b1101#4 ++ cond.bits).extractLsb' 3 5 := by
    unfold encodeT1
    rw [BitVec.extractLsb'_append_eq_of_le (by omega)]
  cases cond <;> simp [isWideT32, h, Cond.bits]

theorem decodeT16_encodeT1 (cond : Cond) (imm8 : BitVec 8) (hc : cond ≠ .al) :
    decodeT16 (encodeT1 cond imm8) = .isB (.bT1 cond imm8) := by
  have h1 : (encodeT1 cond imm8).extractLsb' 12 4 = 0b1101#4 := by
    unfold encodeT1
    rw [BitVec.extractLsb'_append_eq_of_le (by omega), BitVec.extractLsb'_append_eq_of_le (by omega)]
    simp
  have h2 : (encodeT1 cond imm8).extractLsb' 8 4 = cond.bits := by
    unfold encodeT1
    rw [BitVec.extractLsb'_append_eq_of_le (by omega),
      BitVec.extractLsb'_append_eq_of_add_le (by omega)]
    simp
  have h3 : (encodeT1 cond imm8).extractLsb' 0 8 = imm8 := by
    unfold encodeT1
    rw [BitVec.extractLsb'_append_eq_of_add_le (by omega)]
    simp
  simp [decodeT16, h1, h2, h3, Cond.ofBits_bits]

theorem encodeT2_top (imm11 : BitVec 11) : (encodeT2 imm11).extractLsb' 11 5 = 0b11100#5 := by
  unfold encodeT2
  rw [BitVec.extractLsb'_append_eq_of_le (by omega)]
  simp

theorem isWideT32_encodeT2 (imm11 : BitVec 11) : isWideT32 (encodeT2 imm11) = false := by
  simp [isWideT32, encodeT2_top]

theorem decodeT16_encodeT2 (imm11 : BitVec 11) : decodeT16 (encodeT2 imm11) = .isB (.bT2 imm11) := by
  have h1 : (encodeT2 imm11).extractLsb' 12 4 = 0b1110#4 := by
    unfold encodeT2
    rw [BitVec.extractLsb'_append_eq_of_le (by omega)]
    rfl
  have h2 : (encodeT2 imm11).extractLsb' 0 11 = imm11 := by
    unfold encodeT2
    rw [BitVec.extractLsb'_append_eq_of_add_le (by omega)]
    simp
  simp [decodeT16, h1, h2, encodeT2_top]

theorem encodeT3hw1_top (S : Bit) (cond : Cond) (imm6 : BitVec 6) :
    (encodeT3hw1 S cond imm6).extractLsb' 11 5 = 0b11110#5 := by
  unfold encodeT3hw1
  rw [BitVec.extractLsb'_append_eq_of_le (by omega), BitVec.extractLsb'_append_eq_of_le (by omega),
    BitVec.extractLsb'_append_eq_of_le (by omega)]
  simp

theorem isWideT32_encodeT3hw1 (S : Bit) (cond : Cond) (imm6 : BitVec 6) :
    isWideT32 (encodeT3hw1 S cond imm6) = true := by
  simp [isWideT32, encodeT3hw1_top]

theorem decodeT32_encodeT3 (S : Bit) (cond : Cond) (imm6 : BitVec 6) (J1 J2 : Bit)
    (imm11 : BitVec 11) (hc : cond ≠ .al) :
    decodeT32 (encodeT3hw1 S cond imm6) (encodeT3hw2 J1 J2 imm11) =
      .isB (.bT3 S cond imm6 J1 J2 imm11) := by
  have h1 : (encodeT3hw1 S cond imm6).extractLsb' 10 1 = S := by
    unfold encodeT3hw1
    rw [BitVec.extractLsb'_append_eq_of_le (by omega), BitVec.extractLsb'_append_eq_of_le (by omega),
      BitVec.extractLsb'_append_eq_of_add_le (by omega)]
    simp
  have h2 : (encodeT3hw1 S cond imm6).extractLsb' 6 4 = cond.bits := by
    unfold encodeT3hw1
    rw [BitVec.extractLsb'_append_eq_of_le (by omega),
      BitVec.extractLsb'_append_eq_of_add_le (by omega)]
    simp
  have h3 : (encodeT3hw1 S cond imm6).extractLsb' 0 6 = imm6 := by
    unfold encodeT3hw1
    rw [BitVec.extractLsb'_append_eq_of_add_le (by omega)]
    simp
  have g1 : (encodeT3hw2 J1 J2 imm11).extractLsb' 14 2 = 0b10#2 := by
    unfold encodeT3hw2
    rw [BitVec.extractLsb'_append_eq_of_le (by omega), BitVec.extractLsb'_append_eq_of_le (by omega),
      BitVec.extractLsb'_append_eq_of_le (by omega), BitVec.extractLsb'_append_eq_of_le (by omega)]
    simp
  have g2 : (encodeT3hw2 J1 J2 imm11).extractLsb' 13 1 = J1 := by
    unfold encodeT3hw2
    rw [BitVec.extractLsb'_append_eq_of_le (by omega), BitVec.extractLsb'_append_eq_of_le (by omega),
      BitVec.extractLsb'_append_eq_of_le (by omega), BitVec.extractLsb'_append_eq_of_add_le (by omega)]
    simp
  have g3 : (encodeT3hw2 J1 J2 imm11).extractLsb' 12 1 = 0b0#1 := by
    unfold encodeT3hw2
    rw [BitVec.extractLsb'_append_eq_of_le (by omega), BitVec.extractLsb'_append_eq_of_le (by omega),
      BitVec.extractLsb'_append_eq_of_add_le (by omega)]
    simp
  have g4 : (encodeT3hw2 J1 J2 imm11).extractLsb' 11 1 = J2 := by
    unfold encodeT3hw2
    rw [BitVec.extractLsb'_append_eq_of_le (by omega),
      BitVec.extractLsb'_append_eq_of_add_le (by omega)]
    simp
  have g5 : (encodeT3hw2 J1 J2 imm11).extractLsb' 0 11 = imm11 := by
    unfold encodeT3hw2
    rw [BitVec.extractLsb'_append_eq_of_add_le (by omega)]
    simp
  simp [decodeT32, encodeT3hw1_top, h1, h2, h3, g1, g2, g3, g4, g5, Cond.ofBits_bits]

theorem encodeT4hw1_top (S : Bit) (imm10 : BitVec 10) :
    (encodeT4hw1 S imm10).extractLsb' 11 5 = 0b11110#5 := by
  unfold encodeT4hw1
  rw [BitVec.extractLsb'_append_eq_of_le (by omega), BitVec.extractLsb'_append_eq_of_le (by omega)]
  simp

theorem isWideT32_encodeT4hw1 (S : Bit) (imm10 : BitVec 10) :
    isWideT32 (encodeT4hw1 S imm10) = true := by
  simp [isWideT32, encodeT4hw1_top]

theorem decodeT32_encodeT4 (S : Bit) (imm10 : BitVec 10) (J1 J2 : Bit) (imm11 : BitVec 11) :
    decodeT32 (encodeT4hw1 S imm10) (encodeT4hw2 J1 J2 imm11) =
      .isB (.bT4 S imm10 J1 J2 imm11) := by
  have h1 : (encodeT4hw1 S imm10).extractLsb' 10 1 = S := by
    unfold encodeT4hw1
    rw [BitVec.extractLsb'_append_eq_of_le (by omega),
      BitVec.extractLsb'_append_eq_of_add_le (by omega)]
    simp
  have h2 : (encodeT4hw1 S imm10).extractLsb' 0 10 = imm10 := by
    unfold encodeT4hw1
    rw [BitVec.extractLsb'_append_eq_of_add_le (by omega)]
    simp
  have g1 : (encodeT4hw2 J1 J2 imm11).extractLsb' 14 2 = 0b10#2 := by
    unfold encodeT4hw2
    rw [BitVec.extractLsb'_append_eq_of_le (by omega), BitVec.extractLsb'_append_eq_of_le (by omega),
      BitVec.extractLsb'_append_eq_of_le (by omega), BitVec.extractLsb'_append_eq_of_le (by omega)]
    simp
  have g2 : (encodeT4hw2 J1 J2 imm11).extractLsb' 13 1 = J1 := by
    unfold encodeT4hw2
    rw [BitVec.extractLsb'_append_eq_of_le (by omega), BitVec.extractLsb'_append_eq_of_le (by omega),
      BitVec.extractLsb'_append_eq_of_le (by omega), BitVec.extractLsb'_append_eq_of_add_le (by omega)]
    simp
  have g3 : (encodeT4hw2 J1 J2 imm11).extractLsb' 12 1 = 0b1#1 := by
    unfold encodeT4hw2
    rw [BitVec.extractLsb'_append_eq_of_le (by omega), BitVec.extractLsb'_append_eq_of_le (by omega),
      BitVec.extractLsb'_append_eq_of_add_le (by omega)]
    simp
  have g4 : (encodeT4hw2 J1 J2 imm11).extractLsb' 11 1 = J2 := by
    unfold encodeT4hw2
    rw [BitVec.extractLsb'_append_eq_of_le (by omega),
      BitVec.extractLsb'_append_eq_of_add_le (by omega)]
    simp
  have g5 : (encodeT4hw2 J1 J2 imm11).extractLsb' 0 11 = imm11 := by
    unfold encodeT4hw2
    rw [BitVec.extractLsb'_append_eq_of_add_le (by omega)]
    simp
  simp [decodeT32, encodeT4hw1_top, h1, h2, g1, g2, g3, g4, g5]

/-! ## From the decoder back to the encoder -/

theorem halfBytes_leHalf (b0 b1 : Byte) : halfBytes (leHalf b0 b1) = [b0, b1] := by
  have h0 : (leHalf b0 b1).extractLsb' 0 8 = b0 := by
    unfold leHalf
    rw [BitVec.extractLsb'_append_eq_of_add_le (by omega)]
    simp
  have h1 : (leHalf b0 b1).extractLsb' 8 8 = b1 := by
    unfold leHalf
    rw [BitVec.extractLsb'_append_eq_of_le (by omega)]
    simp
  simp [halfBytes, h0, h1]

theorem wordBytes_leWord (b0 b1 b2 b3 : Byte) : wordBytes (leWord b0 b1 b2 b3) = [b0, b1, b2, b3] := by
  have h0 : (leWord b0 b1 b2 b3).extractLsb' 0 8 = b0 := by
    unfold leWord
    rw [BitVec.extractLsb'_append_eq_of_add_le (by omega)]
    simp
  have h1 : (leWord b0 b1 b2 b3).extractLsb' 8 8 = b1 := by
    unfold leWord
    rw [BitVec.extractLsb'_append_eq_of_le (by omega),
      BitVec.extractLsb'_append_eq_of_add_le (by omega)]
    simp
  have h2 : (leWord b0 b1 b2 b3).extractLsb' 16 8 = b2 := by
    unfold leWord
    rw [BitVec.extractLsb'_append_eq_of_le (by omega), BitVec.extractLsb'_append_eq_of_le (by omega),
      BitVec.extractLsb'_append_eq_of_add_le (by omega)]
    simp
  have h3 : (leWord b0 b1 b2 b3).extractLsb' 24 8 = b3 := by
    unfold leWord
    rw [BitVec.extractLsb'_append_eq_of_le (by omega), BitVec.extractLsb'_append_eq_of_le (by omega),
      BitVec.extractLsb'_append_eq_of_le (by omega)]
    simp
  simp [wordBytes, h0, h1, h2, h3]

/-- A word that decodes in A32 is the A1 encoding of what it decodes to. -/
theorem decodeA32_isB {w : Word} {i : Instr} (h : decodeA32 w = .isB i) :
    ∃ cond imm24, i = .bA1 cond imm24 ∧ encodeA1 cond imm24 = w := by
  unfold decodeA32 at h
  split at h
  · rename_i hw
    split at h
    · cases h
    · rename_i cond hc
      cases h
      refine ⟨_, _, rfl, ?_⟩
      unfold encodeA1
      rw [Cond.bits_of_ofBits hc, ← hw.1, ← hw.2,
        BitVec.extractLsb'_append_extractLsb'_eq_extractLsb' (by omega),
        BitVec.extractLsb'_append_extractLsb'_eq_extractLsb' (by omega),
        BitVec.extractLsb'_append_extractLsb'_eq_extractLsb' (by omega)]
      simp
  · cases h

/-- A halfword that decodes as a 16-bit instruction is the encoding of what it decodes to. -/
theorem decodeT16_isB {w : Half} {i : Instr} (h : decodeT16 w = .isB i) :
    i.wellFormed = true ∧ i.set = .t32 ∧ isWideT32 w = false ∧ encode i = halfBytes w := by
  unfold decodeT16 at h
  split at h
  · rename_i hw
    split at h
    · cases h
    · cases h
    · rename_i cond hne hc
      cases h
      have e : encodeT1 cond (w.extractLsb' 0 8) = w := by
        unfold encodeT1
        rw [Cond.bits_of_ofBits hc, ← hw, BitVec.extractLsb'_append_extractLsb'_eq_extractLsb' (by omega),
          BitVec.extractLsb'_append_extractLsb'_eq_extractLsb' (by omega)]
        simp
      refine ⟨?_, rfl, ?_, by simp [encode, e]⟩
      · simp only [Instr.wellFormed, bne_iff_ne]
        rintro rfl
        simp_all
      · rw [← e]
        exact isWideT32_encodeT1 _ _
  · split at h
    · rename_i hw
      cases h
      have e : encodeT2 (w.extractLsb' 0 11) = w := by
        unfold encodeT2
        rw [← hw, BitVec.extractLsb'_append_extractLsb'_eq_extractLsb' (by omega)]
        simp
      refine ⟨rfl, rfl, ?_, by simp [encode, e]⟩
      rw [← e]
      exact isWideT32_encodeT2 _
    · cases h

/-- Two halfwords that decode as a 32-bit instruction are the encoding of what they decode to. -/
theorem decodeT32_isB {w1 w2 : Half} {i : Instr} (h : decodeT32 w1 w2 = .isB i) :
    i.wellFormed = true ∧ i.set = .t32 ∧ isWideT32 w1 = true ∧
      encode i = halfBytes w1 ++ halfBytes w2 := by
  unfold decodeT32 at h
  split at h
  · rename_i hw
    split at h
    · rename_i h12
      split at h
      · cases h
      · cases h
      · rename_i cond hne hc
        cases h
        have e1 : encodeT3hw1 (w1.extractLsb' 10 1) cond (w1.extractLsb' 0 6) = w1 := by
          unfold encodeT3hw1
          rw [Cond.bits_of_ofBits hc, ← hw.1,
            BitVec.extractLsb'_append_extractLsb'_eq_extractLsb' (by omega),
            BitVec.extractLsb'_append_extractLsb'_eq_extractLsb' (by omega),
            BitVec.extractLsb'_append_extractLsb'_eq_extractLsb' (by omega)]
          simp
        have e2 : encodeT3hw2 (w2.extractLsb' 13 1) (w2.extractLsb' 11 1) (w2.extractLsb' 0 11) =
            w2 := by
          unfold encodeT3hw2
          rw [← hw.2, ← h12, BitVec.extractLsb'_append_extractLsb'_eq_extractLsb' (by omega),
            BitVec.extractLsb'_append_extractLsb'_eq_extractLsb' (by omega),
            BitVec.extractLsb'_append_extractLsb'_eq_extractLsb' (by omega),
            BitVec.extractLsb'_append_extractLsb'_eq_extractLsb' (by omega)]
          simp
        refine ⟨?_, rfl, by simp [isWideT32, hw.1], by simp [encode, e1, e2]⟩
        simp only [Instr.wellFormed, bne_iff_ne]
        rintro rfl
        simp_all
    · rename_i h12
      cases h
      have h12 : w2.extractLsb' 12 1 = 0b1#1 := by
        rcases BitVec.eq_zero_or_eq_one (w2.extractLsb' 12 1) with h | h
        · exact absurd h h12
        · exact h
      have e1 : encodeT4hw1 (w1.extractLsb' 10 1) (w1.extractLsb' 0 10) = w1 := by
        unfold encodeT4hw1
        rw [← hw.1, BitVec.extractLsb'_append_extractLsb'_eq_extractLsb' (by omega),
          BitVec.extractLsb'_append_extractLsb'_eq_extractLsb' (by omega)]
        simp
      have e2 : encodeT4hw2 (w2.extractLsb' 13 1) (w2.extractLsb' 11 1) (w2.extractLsb' 0 11) =
          w2 := by
        unfold encodeT4hw2
        rw [← hw.2, ← h12, BitVec.extractLsb'_append_extractLsb'_eq_extractLsb' (by omega),
          BitVec.extractLsb'_append_extractLsb'_eq_extractLsb' (by omega),
          BitVec.extractLsb'_append_extractLsb'_eq_extractLsb' (by omega),
          BitVec.extractLsb'_append_extractLsb'_eq_extractLsb' (by omega)]
        simp
      exact ⟨rfl, rfl, by simp [isWideT32, hw.1], by simp [encode, e1, e2]⟩
  · cases h

theorem Verdict.followedBy_instr {v : Verdict} {r r' : List Byte} {i : Instr}
    (h : v.followedBy r = .instr i r') : v = .isB i ∧ r = r' := by
  cases v <;> simp_all [Verdict.followedBy]

theorem Verdict.followedBy_ne_truncated (v : Verdict) (r : List Byte) :
    v.followedBy r ≠ .truncated := by
  cases v <;> simp [Verdict.followedBy]

end Sys2Proof
end

