-- ==== Sys2Proof/Laws/State.lean ====
section
/-! SUPPORT. What each update of the state leaves in each field, so that no proof unfolds an update. -/

namespace Sys2Proof.Machine

variable (s : State)

/-! ## `branchWritePC` -/

section
variable (address : Word) (b : BranchType)

theorem branchWritePC_pc_a32 (h : s.t = .a32) :
    (branchWritePC address b s).pc = address.extractLsb' 2 30 ++ 0b00#2 := by
  simp [branchWritePC, h]

theorem branchWritePC_pc_t32 (h : s.t = .t32) :
    (branchWritePC address b s).pc = address.extractLsb' 1 31 ++ 0b0#1 := by
  simp [branchWritePC, h]

@[simp] theorem branchWritePC_n : (branchWritePC address b s).n = s.n := rfl
@[simp] theorem branchWritePC_z : (branchWritePC address b s).z = s.z := rfl
@[simp] theorem branchWritePC_c : (branchWritePC address b s).c = s.c := rfl
@[simp] theorem branchWritePC_v : (branchWritePC address b s).v = s.v := rfl
@[simp] theorem branchWritePC_t : (branchWritePC address b s).t = s.t := rfl
@[simp] theorem branchWritePC_itstate : (branchWritePC address b s).itstate = s.itstate := rfl
@[simp] theorem branchWritePC_programText :
    (branchWritePC address b s).programText = s.programText := rfl
@[simp] theorem branchWritePC_haltAddr : (branchWritePC address b s).haltAddr = s.haltAddr := rfl
end

/-! ## `itAdvance` -/

theorem itAdvance_itstate_a32 (h : s.t = .a32) : (itAdvance s).itstate = s.itstate := by
  simp [itAdvance, h]

theorem itAdvance_itstate_t32 (h : s.t = .t32) :
    (itAdvance s).itstate = itAdvanceValue s.itstate := by
  simp [itAdvance, h]

@[simp] theorem itAdvance_pc : (itAdvance s).pc = s.pc := rfl
@[simp] theorem itAdvance_n : (itAdvance s).n = s.n := rfl
@[simp] theorem itAdvance_z : (itAdvance s).z = s.z := rfl
@[simp] theorem itAdvance_c : (itAdvance s).c = s.c := rfl
@[simp] theorem itAdvance_v : (itAdvance s).v = s.v := rfl
@[simp] theorem itAdvance_t : (itAdvance s).t = s.t := rfl
@[simp] theorem itAdvance_programText : (itAdvance s).programText = s.programText := rfl
@[simp] theorem itAdvance_haltAddr : (itAdvance s).haltAddr = s.haltAddr := rfl

/-! ## `withFetchWord` -/

section
variable (nbits w : Nat)

@[simp] theorem withFetchWord_pc : (s.withFetchWord nbits w).pc = s.pc := rfl
@[simp] theorem withFetchWord_n : (s.withFetchWord nbits w).n = s.n := rfl
@[simp] theorem withFetchWord_z : (s.withFetchWord nbits w).z = s.z := rfl
@[simp] theorem withFetchWord_c : (s.withFetchWord nbits w).c = s.c := rfl
@[simp] theorem withFetchWord_v : (s.withFetchWord nbits w).v = s.v := rfl
@[simp] theorem withFetchWord_t : (s.withFetchWord nbits w).t = (tableBytes nbits w).1 := rfl
@[simp] theorem withFetchWord_itstate : (s.withFetchWord nbits w).itstate = s.itstate := rfl
@[simp] theorem withFetchWord_programText :
    (s.withFetchWord nbits w).programText =
      loadBytes s.programText s.pc (tableBytes nbits w).2 := rfl
@[simp] theorem withFetchWord_haltAddr : (s.withFetchWord nbits w).haltAddr = s.haltAddr := rfl
end

end Sys2Proof.Machine
end

