-- ==== Sys2Proof/Laws/Ops.lean ====
section
/-! SUPPORT. What each shared operation can do: one lemma per operation, for proofs to cite instead of
unfolding it. -/

namespace Sys2Proof.Machine

variable {s s' : State}

/-- A sequential advance that answers a next state (R106). -/
theorem sequentialAdvance_next {ilen : Nat} (h : sequentialAdvance ilen s = .next s') :
    s.pc.toNat + ilen < Config.addressSpace ∧
      s' = itAdvance { s with pc := s.pc + BitVec.ofNat 32 ilen } := by
  unfold sequentialAdvance at h
  split at h
  · rename_i room
    exact ⟨room, by simpa using h.symm⟩
  · cases h

theorem sequentialAdvance_ne_fault {ilen : Nat} {r : Fault} : sequentialAdvance ilen s ≠ .fault r := by
  unfold sequentialAdvance
  split <;> simp

/-- An execute block that answers a next state: the branch was taken, or it fell through (R100). -/
theorem executeBlock_next {cond : Cond} {offset : Word} {ilen : Nat}
    (h : executeBlock cond offset ilen s = .next s') :
    (conditionHolds cond s = true ∧
      s' = itAdvance (branchWritePC (pcRead s + offset) .dir s)) ∨
    (conditionHolds cond s = false ∧ s.pc.toNat + ilen < Config.addressSpace ∧
      s' = itAdvance { s with pc := s.pc + BitVec.ofNat 32 ilen }) := by
  unfold executeBlock at h
  split at h
  · rename_i holds
    exact .inl ⟨holds, by simpa using h.symm⟩
  · rename_i fails
    exact .inr ⟨by simpa using fails, sequentialAdvance_next h⟩

theorem executeBlock_ne_fault {cond : Cond} {offset : Word} {ilen : Nat} {r : Fault} :
    executeBlock cond offset ilen s ≠ .fault r := by
  unfold executeBlock
  split
  · simp
  · exact sequentialAdvance_ne_fault

theorem condBranchT32_next {see : NotB} {cond : Cond} {offset : Word} {ilen : Nat}
    (h : condBranchT32 see cond offset ilen s = .next s') :
    s.t = .t32 ∧ cond ≠ .al ∧ inITBlock s = false ∧ executeBlock cond offset ilen s = .next s' := by
  unfold condBranchT32 at h
  split at h
  · cases h
  · split at h
    · cases h
    · split at h
      · cases h
      · simp_all

theorem itBranchT32_next {offset : Word} {ilen : Nat} (h : itBranchT32 offset ilen s = .next s') :
    s.t = .t32 ∧ (inITBlock s && !lastInITBlock s) = false ∧
      ∃ cond, itCondition s = some cond ∧ executeBlock cond offset ilen s = .next s' := by
  unfold itBranchT32 at h
  split at h
  · cases h
  · split at h
    · cases h
    · split at h
      · cases h
      · rename_i cond hc
        simp_all

theorem condBranchT32_ne_fault {see : NotB} {cond : Cond} {offset : Word} {ilen : Nat} {r : Fault} :
    condBranchT32 see cond offset ilen s ≠ .fault r := by
  unfold condBranchT32
  repeat' split
  all_goals first | exact executeBlock_ne_fault | simp

theorem itBranchT32_ne_fault {offset : Word} {ilen : Nat} {r : Fault} :
    itBranchT32 offset ilen s ≠ .fault r := by
  unfold itBranchT32
  repeat' split
  all_goals first | exact executeBlock_ne_fault | simp

/-- Every meaning that answers a next state ran the execute block, in the instruction's own instruction
set, with its offset, its length and its current condition. -/
theorem exec_next {i : Instr} (h : exec i s = .next s') :
    s.t = i.set ∧ ∃ cond, currentCond i s = some cond ∧
      executeBlock cond (imm32 i) i.ilen s = .next s' := by
  cases i with
  | bA1 cond imm24 =>
    simp only [exec, execBA1] at h
    split at h
    · cases h
    · rename_i ht
      exact ⟨Decidable.not_not.mp ht, cond, rfl, h⟩
  | bT1 cond imm8 =>
    obtain ⟨ht, -, -, hx⟩ := condBranchT32_next h
    exact ⟨ht, cond, rfl, hx⟩
  | bT2 imm11 =>
    obtain ⟨ht, -, cond, hc, hx⟩ := itBranchT32_next h
    exact ⟨ht, cond, hc, hx⟩
  | bT3 S cond imm6 J1 J2 imm11 =>
    obtain ⟨ht, -, -, hx⟩ := condBranchT32_next h
    exact ⟨ht, cond, rfl, hx⟩
  | bT4 S imm10 J1 J2 imm11 =>
    obtain ⟨ht, -, cond, hc, hx⟩ := itBranchT32_next h
    exact ⟨ht, cond, hc, hx⟩

/-- What `issue` found when it found an instruction (R134). -/
theorem issue_next {i : Instr} (h : issue s = .next i) :
    s.pc ≠ s.haltAddr ∧ pcAligned s = true ∧ itLegal s = true ∧
      ∃ bytes rest, fetch s = some bytes ∧ decode s.t bytes = .instr i rest := by
  unfold issue at h
  split at h
  · cases h
  · split at h
    · cases h
    · split at h
      · cases h
      · split at h
        · cases h
        · split at h
          · cases h
            simp_all
          · cases h
          · cases h

/-- A step that answers a next state executed the instruction it issued (R100). -/
theorem step_next (h : step s = .next s') : ∃ i, issue s = .next i ∧ exec i s = .next s' := by
  unfold step at h
  split at h
  · rename_i i hi
    exact ⟨i, hi, h⟩
  · cases h
  · cases h

end Sys2Proof.Machine
end

