-- ==== Sys2Proof/Laws/Exec.lean ====
section
/-! SUPPORT. Where a meaning is its execute block: in its own instruction set, well formed and placed as
the IT block allows. -/

namespace Sys2Proof.Machine

theorem itCondition_outside {s : State} (h : s.itstate.extractLsb' 0 4 = 0b0000#4) :
    itCondition s = some .al := by
  simp [itCondition, inITBlock, h]

theorem itCondition_inside {s : State} (h : s.itstate.extractLsb' 0 4 ≠ 0b0000#4) :
    itCondition s = Cond.ofBits (s.itstate.extractLsb' 4 4) := by
  simp [itCondition, inITBlock, h]

theorem itBranchT32_of_placed {s : State} {offset : Word} {ilen : Nat} {cond : Cond}
    (ht : s.t = .t32) (hp : inITBlock s = false ∨ lastInITBlock s = true)
    (hc : itCondition s = some cond) : itBranchT32 offset ilen s = executeBlock cond offset ilen s := by
  have h : (inITBlock s && !lastInITBlock s) = false := by
    rcases hp with h | h <;> simp [h]
  simp [itBranchT32, ht, h, hc]

theorem condBranchT32_of_placed {s : State} {see : NotB} {offset : Word} {ilen : Nat} {cond : Cond}
    (ht : s.t = .t32) (hc : cond ≠ .al) (hp : inITBlock s = false) :
    condBranchT32 see cond offset ilen s = executeBlock cond offset ilen s := by
  simp [condBranchT32, ht, hc, hp]

/-- A well-formed instruction, in its instruction set and placed as the IT block allows, runs the execute
block with its current condition, its offset and its length (R100, R107 to R111). -/
theorem exec_eq_executeBlock {i : Instr} {s : State} {cond : Cond} (hw : i.wellFormed = true)
    (hs : s.t = i.set) (hp : ItPlaced i s) (hc : currentCond i s = some cond) :
    exec i s = executeBlock cond (imm32 i) i.ilen s := by
  cases i with
  | bA1 =>
    cases hc
    simp [exec, execBA1, hs, Instr.set, imm32, Instr.ilen]
  | bT1 => cases hc; exact condBranchT32_of_placed hs (by simpa [Instr.wellFormed] using hw) hp
  | bT2 => exact itBranchT32_of_placed hs hp hc
  | bT3 => cases hc; exact condBranchT32_of_placed hs (by simpa [Instr.wellFormed] using hw) hp
  | bT4 => exact itBranchT32_of_placed hs hp hc

end Sys2Proof.Machine
end

