-- ==== Sys2Proof/Laws/Fetch.lean ====
section
/-! SUPPORT. What reading bytes and the fetch can do: lengths, splitting, and that the fetch always gives
the decoder enough bytes. -/

namespace Sys2Proof.Machine

theorem readBytes_succ (m : Memory) (a : Word) (k : Nat) :
    readBytes m a (k + 1) =
      (match Memory.read m a.toNat, readBytes m (a + 1#32) k with
      | some b, some bs => some (b :: bs)
      | _, _ => none) := rfl

theorem readBytes_length {k : Nat} {m : Memory} {a : Word} {bytes : List Byte}
    (h : readBytes m a k = some bytes) : bytes.length = k := by
  induction k generalizing a bytes with
  | zero =>
    simp only [readBytes, Option.some.injEq] at h
    simp [← h]
  | succ k ih =>
    rw [readBytes_succ] at h
    split at h
    · rename_i b bs _ hbs
      cases h
      simp [ih hbs]
    · cases h

/-- Reading `n + k` bytes is reading `n` and then `k`. -/
theorem readBytes_split {n k : Nat} {m : Memory} {a : Word} {x y : List Byte} (hx : x.length = n)
    (h : readBytes m a (n + k) = some (x ++ y)) :
    readBytes m a n = some x ∧ readBytes m (a + BitVec.ofNat 32 n) k = some y := by
  induction n generalizing a x with
  | zero =>
    obtain rfl := List.length_eq_zero_iff.mp hx
    simp only [Nat.zero_add, List.nil_append] at h
    simp [readBytes, h]
  | succ n ih =>
    cases x with
    | nil => simp at hx
    | cons b x =>
      rw [show n + 1 + k = (n + k) + 1 by omega, readBytes_succ] at h
      split at h
      · rename_i b' bs hb hbs
        simp only [List.cons_append, Option.some.injEq, List.cons.injEq] at h
        obtain ⟨rfl, rfl⟩ := h
        obtain ⟨h1, h2⟩ := ih (by simpa using hx) hbs
        refine ⟨by rw [readBytes_succ, hb, h1], ?_⟩
        rw [← h2, BitVec.ofNat_add, BitVec.add_assoc, BitVec.add_comm 1#32]
      · cases h

/-- One byte outside `ProgramText` and the read gives none. -/
theorem readBytes_none {n k : Nat} {m : Memory} {a : Word} (hk : k < n)
    (h : Memory.read m (a + BitVec.ofNat 32 k).toNat = none) : readBytes m a n = none := by
  induction n generalizing a k with
  | zero => omega
  | succ n ih =>
    rw [readBytes_succ]
    cases k with
    | zero =>
      simp only [BitVec.add_zero] at h
      simp [h]
    | succ k =>
      have hr : readBytes m (a + 1#32) n = none := by
        refine ih (k := k) (by omega) ?_
        rw [← h, BitVec.ofNat_add, BitVec.add_assoc, BitVec.add_comm 1#32]
      rw [hr]
      split <;> simp_all

/-- The fetch gives the decoder all the bytes it asks for. -/
theorem decode_fetch_ne_truncated {s : State} {bytes : List Byte} (h : fetch s = some bytes) :
    decode s.t bytes ≠ .truncated := by
  unfold fetch at h
  split at h
  · rename_i ht
    have hl := readBytes_length h
    match bytes, hl with
    | [b0, b1, b2, b3], _ =>
      rw [ht]
      exact Verdict.followedBy_ne_truncated _ _
  · rename_i ht
    split at h
    · rename_i b0 b1 _
      split at h
      · rename_i hw
        split at h
        · rename_i more hm
          cases h
          have hl := readBytes_length hm
          match more, hl with
          | [b2, b3], _ =>
            rw [ht]
            simp only [decode, hw, if_true]
            exact Verdict.followedBy_ne_truncated _ _
        · cases h
      · rename_i hw
        cases h
        rw [ht]
        simp only [decode, hw]
        exact Verdict.followedBy_ne_truncated _ _
    · cases h

end Sys2Proof.Machine
end

