-- ==== Sys2Proof/Laws/Memory.lean ====
section
/-! SUPPORT. `ProgramText`: loading keeps the canonical form, and a byte reads as it was last set. -/

namespace Sys2Proof.Machine

theorem Memory.wfFrom_mono {m : Memory} {low low' : Nat} (h : Memory.wfFrom low m = true)
    (le : low' ≤ low) : Memory.wfFrom low' m = true := by
  cases m with
  | nil => rfl
  | cons p rest =>
    obtain ⟨k, c⟩ := p
    simp only [Memory.wfFrom, Bool.and_eq_true, decide_eq_true_eq] at h ⊢
    exact ⟨⟨by omega, h.1.2⟩, h.2⟩

theorem Memory.write_wfFrom {m : Memory} {low a : Nat} (b : Byte)
    (h : Memory.wfFrom low m = true) (hl : low ≤ a) (ha : a < Config.addressSpace) :
    Memory.wfFrom low (Memory.write m a b) = true := by
  induction m generalizing low with
  | nil => simp [Memory.write, Memory.wfFrom, hl, ha]
  | cons p rest ih =>
    obtain ⟨k, c⟩ := p
    simp only [Memory.wfFrom, Bool.and_eq_true, decide_eq_true_eq] at h
    obtain ⟨⟨hk, hs⟩, hr⟩ := h
    unfold Memory.write
    split
    · simp only [Memory.wfFrom, Bool.and_eq_true, decide_eq_true_eq]
      exact ⟨⟨hl, ha⟩, ⟨by omega, hs⟩, hr⟩
    · split
      · subst_vars
        simp only [Memory.wfFrom, Bool.and_eq_true, decide_eq_true_eq]
        exact ⟨⟨hl, ha⟩, hr⟩
      · simp only [Memory.wfFrom, Bool.and_eq_true, decide_eq_true_eq]
        exact ⟨⟨hk, hs⟩, ih hr (by omega)⟩

/-- Setting a byte inside the address space keeps the canonical form. -/
theorem Memory.write_wf {m : Memory} {a : Nat} (b : Byte) (h : Memory.wf m = true)
    (ha : a < Config.addressSpace) : Memory.wf (Memory.write m a b) = true :=
  Memory.write_wfFrom b h (Nat.zero_le a) ha

/-- Loading bytes keeps the canonical form. -/
theorem loadBytes_wf {m : Memory} (a : Word) (bytes : List Byte) (h : Memory.wf m = true) :
    Memory.wf (loadBytes m a bytes) = true := by
  induction bytes generalizing m a with
  | nil => exact h
  | cons b rest ih => exact ih _ (Memory.write_wf b h a.isLt)

/-- The launch state's `ProgramText` has the canonical form. -/
theorem reset_programText_wf : Memory.wf State.reset.programText = true := rfl

theorem Memory.read_write_same (m : Memory) (a : Nat) (b : Byte) :
    Memory.read (Memory.write m a b) a = some b := by
  induction m with
  | nil => simp [Memory.write, Memory.read]
  | cons p rest ih =>
    obtain ⟨k, c⟩ := p
    unfold Memory.write
    split
    · simp [Memory.read]
    · split
      · simp [Memory.read]
      · have : k ≠ a := by omega
        simp [Memory.read, this, ih]

theorem Memory.read_write_other (m : Memory) (a x : Nat) (b : Byte) (hx : x ≠ a) :
    Memory.read (Memory.write m a b) x = Memory.read m x := by
  induction m with
  | nil => simp [Memory.write, Memory.read, hx.symm]
  | cons p rest ih =>
    obtain ⟨k, c⟩ := p
    unfold Memory.write
    split
    · simp [Memory.read, hx.symm]
    · split
      · subst_vars
        simp [Memory.read, hx.symm]
      · simp [Memory.read, ih]

end Sys2Proof.Machine
end

