-- ==== Sys2Proof/Laws/PerInstr.lean ====
section
/-! SUPPORT. Statements about every instruction, one lemma per constructor. -/

/-- Round trip: the encoded bytes of a well-formed instruction decode to it, whatever follows them. -/
def Sys2Proof.Laws.RoundTrip.Statement (i : Sys2Proof.Instr) : Prop :=
  i.wellFormed = true →
    ∀ rest, Sys2Proof.decode i.set (Sys2Proof.encode i ++ rest) = .instr i rest

namespace Sys2Proof.Laws.RoundTrip

theorem bA1 (cond : Cond) (imm24 : BitVec 24) : Statement (.bA1 cond imm24) := by
  intro _ rest
  simp [Instr.set, encode, wordBytes, decode, leWord_quarters, decodeA32_encodeA1, Verdict.followedBy]

theorem bT1 (cond : Cond) (imm8 : BitVec 8) : Statement (.bT1 cond imm8) := by
  intro hw rest
  simp [Instr.set, encode, halfBytes, decode, leHalf_halves, isWideT32_encodeT1,
    decodeT16_encodeT1 cond imm8 (by simpa [Instr.wellFormed] using hw), Verdict.followedBy]

theorem bT2 (imm11 : BitVec 11) : Statement (.bT2 imm11) := by
  intro _ rest
  simp [Instr.set, encode, halfBytes, decode, leHalf_halves, isWideT32_encodeT2, decodeT16_encodeT2,
    Verdict.followedBy]

theorem bT3 (S : Bit) (cond : Cond) (imm6 : BitVec 6) (J1 J2 : Bit) (imm11 : BitVec 11) :
    Statement (.bT3 S cond imm6 J1 J2 imm11) := by
  intro hw rest
  simp [Instr.set, encode, halfBytes, decode, leHalf_halves, isWideT32_encodeT3hw1,
    decodeT32_encodeT3 S cond imm6 J1 J2 imm11 (by simpa [Instr.wellFormed] using hw),
    Verdict.followedBy]

theorem bT4 (S : Bit) (imm10 : BitVec 10) (J1 J2 : Bit) (imm11 : BitVec 11) :
    Statement (.bT4 S imm10 J1 J2 imm11) := by
  intro _ rest
  simp [Instr.set, encode, halfBytes, decode, leHalf_halves, isWideT32_encodeT4hw1, decodeT32_encodeT4,
    Verdict.followedBy]

end Sys2Proof.Laws.RoundTrip
end

