-- ==== Sys2Proof/Laws/Run.lean ====
section
/-! SUPPORT. The run of Safety.lean is the host's run of the core. -/

namespace Sys2Proof.Machine

theorem coreRun_succ (M : Host.Core) (j : Nat) (s : M.State) :
    M.run (j + 1) s =
      (match M.step s with
      | .next s' => M.run j s'
      | .fault r => .fault r
      | .refused r => .refused r) := rfl

theorem coreRun_eq_run (k : Nat) (s : State) : Host.Core.run core k s = run k s := by
  induction k generalizing s with
  | zero => rfl
  | succ j ih =>
    refine (coreRun_succ core j s).trans ?_
    have hc : core.step s = step s := rfl
    simp only [hc, run]
    cases step s with
    | next s' => exact ih s'
    | fault r => rfl
    | refused r => rfl

end Sys2Proof.Machine
end

