-- ==== Sys2Proof/Tests/Slice0.lean ====
section
/-! SUPPORT. Tests: ill-formed terms, words written out from the encoding tables, single steps of
spec/95_test_vectors.md, and for every statement with hypotheses a state and operands that meet them. -/

open Sys2Proof Sys2Proof.Machine

namespace Sys2Proof.Tests

/-- A state at `pc` with `ProgramText` exactly the given bytes from `pc` on (95_test_vectors.md section 4);
`flags` is `NZCV`. -/
def at' (set : InstrSet) (pc : Word) (flags : BitVec 4) (it : BitVec 8) (bytes : List Byte) : State where
  pc := pc
  n := flags.getLsbD 3
  z := flags.getLsbD 2
  c := flags.getLsbD 1
  v := flags.getLsbD 0
  t := set
  itstate := it
  programText := loadBytes [] pc bytes
  haltAddr := 0x00000200#32

/-- `pc` and `ITSTATE` of the next state, none where there is no next state. -/
def after (o : Host.Outcome State Fault Refusal) : Option (Word × BitVec 8) :=
  match o with
  | .next s => some (s.pc, s.itstate)
  | .fault _ => none
  | .refused _ => none

/-- The reason of a refusal. -/
def refusal (o : Host.Outcome State Fault Refusal) : Option Refusal :=
  match o with
  | .next _ => none
  | .fault _ => none
  | .refused r => some r

/-- The reason of a fault. -/
def fault (o : Host.Outcome State Fault Refusal) : Option Fault :=
  match o with
  | .next _ => none
  | .fault f => some f
  | .refused _ => none

/-! ## Well-formedness: the two excluded values of `cond` (R62, R64) -/

theorem test_illformed_T1_AL : (Instr.bT1 .al 0#8).wellFormed = false := by decide
theorem test_illformed_T3_AL : (Instr.bT3 0#1 .al 0#6 0#1 0#1 0#11).wellFormed = false := by decide

/-! ## Decoding: words written out bit by bit from R61 to R65 -/

theorem test_decode_A1 :
    decodeA32 0b1011_101_0_000000000000000001000000#32 = .isB (.bA1 .lt 0x40#24) := by decide
theorem test_decode_T1 : decodeT16 0b1101_0001_11111100#16 = .isB (.bT1 .ne 0xFC#8) := by decide
theorem test_decode_T2 : decodeT16 0b11100_11111111110#16 = .isB (.bT2 0x7FE#11) := by decide
theorem test_decode_T3 :
    decodeT32 0b11110_0_0001_000001#16 0b10_1_0_0_00000000011#16 =
      .isB (.bT3 0#1 .ne 1#6 1#1 0#1 3#11) := by decide
theorem test_decode_T4 :
    decodeT32 0b11110_1_1111111111#16 0b10_1_1_0_11111111111#16 =
      .isB (.bT4 1#1 0x3FF#10 1#1 0#1 0x7FF#11) := by decide

/-- The rows of 95_test_vectors.md section 2.6 that are not a `B`, A32. -/
theorem test_decode_notB_A32 :
    decodeA32 0xEB000000#32 = .notB .notBPattern ∧ decodeA32 0xFA000000#32 = .notB .a32Cond1111 ∧
    decodeA32 0xFB000000#32 = .notB .notBPattern ∧ decodeA32 0xE1A00000#32 = .notB .notBPattern := by
  decide

/-- The rows of 95_test_vectors.md section 2.6 that are not a `B`, T32. -/
theorem test_decode_notB_T32 :
    decodeT16 0xDE00#16 = .notB .udf ∧ decodeT16 0xDF00#16 = .notB .svc ∧
    decodeT16 0xBF00#16 = .notB .notBPattern ∧
    decodeT32 0xF380#16 0x8000#16 = .notB .relatedEncodings ∧
    decodeT32 0xF7BF#16 0xAFFF#16 = .notB .relatedEncodings ∧
    decodeT32 0xF000#16 0xD000#16 = .notB .notBPattern ∧
    decodeT32 0xEA00#16 0x0000#16 = .notB .notBPattern := by
  decide

/-- The first word of each row of the opcode table, numbered as the table numbers it. -/
theorem test_table_words :
    decodeTableWord 32 0x0A000000 = some (.bA1 .eq 0#24) ∧
    decodeTableWord 16 0xD000 = some (.bT1 .eq 0#8) ∧
    decodeTableWord 16 0xE000 = some (.bT2 0#11) ∧
    decodeTableWord 32 0xF0008000 = some (.bT3 0#1 .eq 0#6 0#1 0#1 0#11) ∧
    decodeTableWord 32 0xF0009000 = some (.bT4 0#1 0#10 0#1 0#1 0#11) := by
  decide

/-! ## Single steps of 95_test_vectors.md section 4 -/

/-- E7: the target wraps below 0. -/
theorem test_A1_target_wraps :
    after (step (at' .a32 0x00001000#32 0b0000#4 0#8 [0x00#8, 0x00#8, 0x80#8, 0xEA#8])) =
      some (0xFE001008#32, 0#8) := by decide

/-- E10: a not-taken `B` at the top of the address space is refused. -/
theorem test_A1_top :
    refusal (step (at' .a32 0xFFFFFFFC#32 0b0000#4 0#8 [0x00#8, 0x00#8, 0x00#8, 0x0A#8])) =
      some .pastTopOfAddressSpace := by decide

/-- E22: the lowest offset of T1, condition GE. -/
theorem test_T1_lowest :
    after (step (at' .t32 0x00001000#32 0b0000#4 0#8 [0x80#8, 0xDA#8])) =
      some (0x00000F04#32, 0#8) := by decide

/-- E26: T1 in an IT block is refused although its condition holds. -/
theorem test_T1_in_IT_block :
    refusal (step (at' .t32 0x00001000#32 0b0100#4 0x08#8 [0x00#8, 0xD0#8])) =
      some .unpredictable := by decide

/-- E36: T2 last in an IT block takes the block's condition and ends the block. -/
theorem test_T2_last_in_IT_block :
    after (step (at' .t32 0x00002000#32 0b0000#4 0x18#8 [0x02#8, 0xE0#8])) =
      some (0x00002008#32, 0#8) := by decide

/-- E40: the block's condition 1111 is refused. -/
theorem test_T2_condition_1111 :
    refusal (step (at' .t32 0x00002000#32 0b0000#4 0xF8#8 [0x02#8, 0xE0#8])) =
      some .itConditionReserved := by decide

/-- E47: `J2` alone is bit 19 of the offset of T3. -/
theorem test_T3_J2 :
    after (step (at' .t32 0x00003000#32 0b0100#4 0#8 [0x00#8, 0xF0#8, 0x00#8, 0x88#8])) =
      some (0x00083004#32, 0#8) := by decide

/-- E44: T3 not taken is four bytes long. -/
theorem test_T3_not_taken :
    after (step (at' .t32 0x00003000#32 0b0000#4 0#8 [0x3F#8, 0xF4#8, 0xFE#8, 0xAF#8])) =
      some (0x00003004#32, 0#8) := by decide

/-- E63: `I2` is 0 where `J2` differs from `S`. -/
theorem test_T4_I2 :
    after (step (at' .t32 0x00004000#32 0b0000#4 0#8 [0xFF#8, 0xF7#8, 0xFF#8, 0xB7#8])) =
      some (0xFFC04002#32, 0#8) := by decide

/-- E65: T4 last in an IT block whose condition CS fails. -/
theorem test_T4_block_condition_fails :
    after (step (at' .t32 0x00004000#32 0b0000#4 0x28#8 [0x01#8, 0xF0#8, 0x00#8, 0xB8#8])) =
      some (0x00004004#32, 0#8) := by decide

/-- The host's placement runs a word of each instruction set as the first instruction after reset. -/
theorem test_withFetchWord :
    after (step (State.reset.withFetchWord 32 0xEA000000)) = some (8#32, 0#8) ∧
    after (step (State.reset.withFetchWord 32 0xF001B800)) = some (0x1004#32, 0#8) ∧
    after (step (State.reset.withFetchWord 16 0xE001)) = some (6#32, 0#8) := by decide

/-! ## The assembler side -/

/-- P1 and P2: `BNE 0x8008` at 0x800C and `BEQ 0x1008` at 0x1000; the same with `.W` is T3. -/
theorem test_assemble :
    assemble (at' .a32 0x0000800C#32 0#4 0#8 []) (some .ne) .omitted 0x00008008#32 =
      some (.bA1 .ne 0xFFFFFD#24) ∧
    assemble (at' .t32 0x00001000#32 0#4 0#8 []) (some .eq) .omitted 0x00001008#32 =
      some (.bT1 .eq 2#8) ∧
    assemble (at' .t32 0x00001000#32 0#4 0#8 []) (some .eq) .wide 0x00001008#32 =
      some (.bT3 0#1 .eq 0#6 0#1 0#1 2#11) ∧
    assemble (at' .t32 0x00001002#32 0#4 0#8 []) none .wide 0x0000100C#32 =
      some (.bT4 0#1 0#10 1#1 1#1 3#11) := by decide

/-- R84: the text of the word at 0x800C of P1, the address written as log entry 10 says. -/
theorem test_disassemble :
    render (disassemble false (at' .a32 0x0000800C#32 0#4 0#8 []) (.bA1 .ne 0xFFFFFD#24)) =
      "BNE 0x00008008" := by decide

/-- R84: `.W` of T4 without a condition although it is last in a block, `.N` of T1 and no `.N` of T2. -/
theorem test_disassemble_T32 :
    render (disassemble true (at' .t32 0x00001002#32 0#4 0x18#8 []) (.bT4 0#1 0#10 1#1 1#1 3#11)) =
      "B.W 0x0000100C" ∧
    render (disassemble true (at' .t32 0x00001000#32 0#4 0#8 []) (.bT1 .eq 2#8)) =
      "BEQ.N 0x00001008" ∧
    render (disassemble true (at' .t32 0x00002000#32 0#4 0#8 []) (.bT2 0x7FE#11)) =
      "B 0x00002000" := by decide

/-! ## Witnesses: for every statement with hypotheses, operands that meet them, clause by clause -/

/-- E4 and E5: `BEQ`, A32. -/
def beq (flags : BitVec 4) : State := at' .a32 0x00008000#32 flags 0#8 [0x02#8, 0x00#8, 0x00#8, 0x0A#8]

/-- E43 and E44: `BEQ.W` to itself, T32. -/
def beqW (flags : BitVec 4) : State :=
  at' .t32 0x00003000#32 flags 0#8 [0x3F#8, 0xF4#8, 0xFE#8, 0xAF#8]

/-- E36 to E42: T2 with an IT-state. -/
def b2 (it : BitVec 8) (flags : BitVec 4) : State := at' .t32 0x00002000#32 flags it [0x02#8, 0xE0#8]

/-- E64 and E65: T4 with an IT-state. -/
def b4 (it : BitVec 8) (flags : BitVec 4) : State :=
  at' .t32 0x00004000#32 flags it [0x01#8, 0xF0#8, 0x00#8, 0xB8#8]

/-- A state at the last aligned address of its instruction set. -/
def top (set : InstrSet) (it : BitVec 8) (flags : BitVec 4) : State :=
  at' set (match set with | .a32 => 0xFFFFFFFC#32 | .t32 => 0xFFFFFFFE#32) flags it []

theorem test_witness_DecodeOfEncode :
    (Instr.bA1 .al 0#24).wellFormed = true ∧ (Instr.bT1 .le 0#8).wellFormed = true ∧
    (Instr.bT2 0#11).wellFormed = true ∧ (Instr.bT3 0#1 .le 0#6 0#1 0#1 0#11).wellFormed = true ∧
    (Instr.bT4 0#1 0#10 0#1 0#1 0#11).wellFormed = true := by decide

theorem test_witness_EncodeOfDecode :
    decode .t32 [0xFE#8, 0xE7#8, 0x01#8] = .instr (.bT2 0x7FE#11) [0x01#8] := by decide

theorem test_witness_DecodingInA32 :
    (0xFA000000#32 &&& 0x0F000000#32 = 0x0A000000#32 ∧ (0xFA000000#32).extractLsb' 28 4 = 0b1111#4) ∧
    (0xEA000000#32 &&& 0x0F000000#32 = 0x0A000000#32 ∧ (0xEA000000#32).extractLsb' 28 4 ≠ 0b1111#4) ∧
    0xEB000000#32 &&& 0x0F000000#32 ≠ 0x0A000000#32 := by decide

theorem test_witness_DecodingInT32 :
    (0xDE00#16 &&& 0xF000#16 = 0xD000#16 ∧ (0xDE00#16).extractLsb' 8 4 = 0b1110#4) ∧
    (0xDF00#16 &&& 0xF000#16 = 0xD000#16 ∧ (0xDF00#16).extractLsb' 8 4 = 0b1111#4) ∧
    (0xDD01#16 &&& 0xF000#16 = 0xD000#16 ∧ (0xDD01#16).extractLsb' 9 3 ≠ 0b111#3) ∧
    0xE7FF#16 &&& 0xF800#16 = 0xE000#16 ∧
    (0xBF00#16 &&& 0xF000#16 ≠ 0xD000#16 ∧ 0xBF00#16 &&& 0xF800#16 ≠ 0xE000#16) ∧
    ((0xF3C0#16 ++ 0x8000#16 : Word) &&& 0xF800D000#32 = 0xF0008000#32 ∧
      (0xF3C0#16).extractLsb' 7 3 = 0b111#3) ∧
    ((0xF340#16 ++ 0x8000#16 : Word) &&& 0xF800D000#32 = 0xF0008000#32 ∧
      (0xF340#16).extractLsb' 7 3 ≠ 0b111#3) ∧
    (0xF7FF#16 ++ 0xBFFE#16 : Word) &&& 0xF800D000#32 = 0xF0009000#32 ∧
    ((0xF000#16 ++ 0xD000#16 : Word) &&& 0xF800D000#32 ≠ 0xF0008000#32 ∧
      (0xF000#16 ++ 0xD000#16 : Word) &&& 0xF800D000#32 ≠ 0xF0009000#32) ∧
    isWideT32 (leHalf 0xFE#8 0xE7#8) = false ∧ isWideT32 (leHalf 0x00#8 0xE8#8) = true := by decide

/-- E17 for the last clause. -/
theorem test_witness_NeighbouringPatternsAreNotB :
    ((0xF000#16).extractLsb' 11 5 = 0b11110#5 ∧ (0x7800#16).extractLsb' 14 2 ≠ 0b10#2) ∧
    ¬(at' .a32 0x8000#32 0#4 0#8 [0#8, 0#8, 0#8, 0xEB#8]).Final ∧
    (at' .a32 0x8000#32 0#4 0#8 [0#8, 0#8, 0#8, 0xEB#8]).Admissible ∧
    fetch (at' .a32 0x8000#32 0#4 0#8 [0#8, 0#8, 0#8, 0xEB#8]) = some [0#8, 0#8, 0#8, 0xEB#8] ∧
    decode .a32 [0#8, 0#8, 0#8, 0xEB#8] = .notB .notBPattern := by decide

theorem test_witness_LengthOfT32Instruction :
    (Instr.bT2 0x7FE#11).set = .t32 ∧ encode (.bT2 0x7FE#11) = [0xFE#8, 0xE7#8] ∧
    (Instr.bT4 1#1 0x3FF#10 1#1 1#1 0x7FE#11).set = .t32 ∧
    encode (.bT4 1#1 0x3FF#10 1#1 1#1 0x7FE#11) = [0xFF#8, 0xF7#8, 0xFE#8, 0xBF#8] := by decide

theorem test_witness_ValueReadFromPc :
    (beq 0#4).t = .a32 ∧ (beqW 0#4).t = .t32 ∧ pcRead (top .a32 0#8 0#4) = 4#32 ∧
    pcRead (top .t32 0#8 0#4) = 2#32 := by decide

theorem test_witness_ConditionTable :
    (Cond.bits .gt).extractLsb' 1 3 = (Cond.bits .le).extractLsb' 1 3 ∧
    (Cond.bits .gt).getLsbD 0 = false ∧ (Cond.bits .le).getLsbD 0 = true := by decide

theorem test_witness_CurrentCondition :
    (b2 0x00#8 0#4).itstate.extractLsb' 0 4 = 0b0000#4 ∧
    (b2 0x18#8 0#4).itstate.extractLsb' 0 4 ≠ 0b0000#4 ∧
    ((b4 0xF8#8 0#4).t = .t32 ∧ (b4 0xF8#8 0#4).itstate = 0b11111000#8) ∧
    pcAligned (b2 0x18#8 0#4) = true ∧ currentCond (.bT2 2#11) (b2 0x18#8 0#4) = some .ne ∧
    after (exec (.bT2 2#11) (b2 0x18#8 0#4)) = some (0x2008#32, 0#8) := by decide

theorem test_witness_ItAdvanceEffect :
    (0x08#8).extractLsb' 0 3 = 0b000#3 ∧ (0x0C#8).extractLsb' 0 3 ≠ 0b000#3 ∧
    itAdvanceValue 0x0C#8 = 0x18#8 ∧ itAdvanceValue 0xFF#8 = 0xFE#8 ∧
    after (exec (.bT2 2#11) (b2 0x18#8 0#4)) = some (0x2008#32, 0#8) ∧
    after (exec (.bA1 .eq 2#24) (beq 0b0100#4)) = some (0x8010#32, 0#8) := by decide

theorem test_witness_BranchWritePcEffect :
    (beq 0#4).t = .a32 ∧ (branchWritePC 0x1007#32 .dir (beq 0#4)).pc = 0x1004#32 ∧
    (b2 0#8 0#4).t = .t32 ∧ (branchWritePC 0x1007#32 .dir (b2 0#8 0#4)).pc = 0x1006#32 := by decide

/-- E9 and E69: the value read from `PC` wraps. -/
theorem test_witness_TargetArithmetic :
    ((Instr.bA1 .al 0#24).wellFormed = true ∧ (top .a32 0#8 0#4).t = Instr.set (.bA1 .al 0#24) ∧
      pcAligned (top .a32 0#8 0#4) = true ∧ ItPlaced (.bA1 .al 0#24) (top .a32 0#8 0#4) ∧
      currentCond (.bA1 .al 0#24) (top .a32 0#8 0#4) = some .al ∧
      conditionHolds .al (top .a32 0#8 0#4) = true) ∧
    ((Instr.bT1 .eq 0#8).wellFormed = true ∧ (top .t32 0#8 0b0100#4).t = Instr.set (.bT1 .eq 0#8) ∧
      pcAligned (top .t32 0#8 0b0100#4) = true ∧ ItPlaced (.bT1 .eq 0#8) (top .t32 0#8 0b0100#4) ∧
      currentCond (.bT1 .eq 0#8) (top .t32 0#8 0b0100#4) = some .eq ∧
      conditionHolds .eq (top .t32 0#8 0b0100#4) = true) := by decide

/-- E65 falls through, E68 is at the top. -/
theorem test_witness_ConditionFailed :
    ((Instr.bT4 0#1 1#10 1#1 1#1 0#11).wellFormed = true ∧
      (b4 0x28#8 0#4).t = Instr.set (.bT4 0#1 1#10 1#1 1#1 0#11) ∧
      ItPlaced (.bT4 0#1 1#10 1#1 1#1 0#11) (b4 0x28#8 0#4) ∧
      currentCond (.bT4 0#1 1#10 1#1 1#1 0#11) (b4 0x28#8 0#4) = some .cs ∧
      conditionHolds .cs (b4 0x28#8 0#4) = false ∧
      (b4 0x28#8 0#4).pc.toNat + Instr.ilen (.bT4 0#1 1#10 1#1 1#1 0#11) < 4294967296) ∧
    ((Instr.bT1 .eq 0#8).wellFormed = true ∧ (top .t32 0#8 0#4).t = Instr.set (.bT1 .eq 0#8) ∧
      ItPlaced (.bT1 .eq 0#8) (top .t32 0#8 0#4) ∧
      currentCond (.bT1 .eq 0#8) (top .t32 0#8 0#4) = some .eq ∧
      conditionHolds .eq (top .t32 0#8 0#4) = false ∧
      4294967296 ≤ (top .t32 0#8 0#4).pc.toNat + Instr.ilen (.bT1 .eq 0#8)) := by decide

theorem test_witness_BranchA1 :
    ((beq 0b0100#4).t = .a32 ∧ pcAligned (beq 0b0100#4) = true ∧
      conditionHolds .eq (beq 0b0100#4) = true) ∧
    (conditionHolds .eq (beq 0#4) = false ∧ (beq 0#4).pc.toNat + 4 < 4294967296) ∧
    ((top .a32 0#8 0#4).t = .a32 ∧ pcAligned (top .a32 0#8 0#4) = true ∧
      conditionHolds .eq (top .a32 0#8 0#4) = false ∧
      4294967296 ≤ (top .a32 0#8 0#4).pc.toNat + 4) := by decide

theorem test_witness_BranchT1 :
    ((b2 0x08#8 0#4).t = .t32 ∧ pcAligned (b2 0x08#8 0#4) = true ∧
      (b2 0x08#8 0#4).itstate.extractLsb' 0 4 ≠ 0b0000#4) ∧
    ((b2 0#8 0b0100#4).t = .t32 ∧ pcAligned (b2 0#8 0b0100#4) = true ∧
      (b2 0#8 0b0100#4).itstate.extractLsb' 0 4 = 0b0000#4 ∧
      conditionHolds .eq (b2 0#8 0b0100#4) = true ∧ conditionHolds .ne (b2 0#8 0b0100#4) = false ∧
      (b2 0#8 0b0100#4).pc.toNat + 2 < 4294967296) ∧
    ((top .t32 0#8 0#4).t = .t32 ∧ pcAligned (top .t32 0#8 0#4) = true ∧
      (top .t32 0#8 0#4).itstate.extractLsb' 0 4 = 0b0000#4 ∧
      conditionHolds .eq (top .t32 0#8 0#4) = false ∧
      4294967296 ≤ (top .t32 0#8 0#4).pc.toNat + 2) := by decide

theorem test_witness_BranchT2 :
    ((b2 0x1C#8 0#4).t = .t32 ∧ pcAligned (b2 0x1C#8 0#4) = true ∧
      (b2 0x1C#8 0#4).itstate.extractLsb' 0 4 ≠ 0b0000#4 ∧
      (b2 0x1C#8 0#4).itstate.extractLsb' 0 4 ≠ 0b1000#4) ∧
    ((b2 0xF8#8 0#4).itstate.extractLsb' 0 4 = 0b1000#4 ∧
      (b2 0xF8#8 0#4).itstate.extractLsb' 4 4 = 0b1111#4) ∧
    (b2 0#8 0#4).itstate.extractLsb' 0 4 = 0b0000#4 ∧
    ((b2 0x18#8 0#4).itstate.extractLsb' 0 4 = 0b1000#4 ∧
      (b2 0x18#8 0#4).itstate.extractLsb' 4 4 = Cond.bits .ne ∧
      conditionHolds .ne (b2 0x18#8 0#4) = true ∧ conditionHolds .ne (b2 0x18#8 0b0100#4) = false ∧
      (b2 0x18#8 0b0100#4).pc.toNat + 2 < 4294967296) ∧
    ((top .t32 0x08#8 0#4).itstate.extractLsb' 0 4 = 0b1000#4 ∧
      (top .t32 0x08#8 0#4).itstate.extractLsb' 4 4 = Cond.bits .eq ∧
      conditionHolds .eq (top .t32 0x08#8 0#4) = false ∧
      4294967296 ≤ (top .t32 0x08#8 0#4).pc.toNat + 2) := by decide

theorem test_witness_BranchT3 :
    ((b4 0x08#8 0#4).t = .t32 ∧ pcAligned (b4 0x08#8 0#4) = true ∧
      (b4 0x08#8 0#4).itstate.extractLsb' 0 4 ≠ 0b0000#4) ∧
    ((beqW 0b0100#4).t = .t32 ∧ pcAligned (beqW 0b0100#4) = true ∧
      (beqW 0b0100#4).itstate.extractLsb' 0 4 = 0b0000#4 ∧
      conditionHolds .eq (beqW 0b0100#4) = true ∧ conditionHolds .eq (beqW 0#4) = false ∧
      (beqW 0#4).pc.toNat + 4 < 4294967296) ∧
    (pcAligned (top .t32 0#8 0#4) = true ∧ (top .t32 0#8 0#4).itstate.extractLsb' 0 4 = 0b0000#4 ∧
      conditionHolds .eq (top .t32 0#8 0#4) = false ∧
      4294967296 ≤ (top .t32 0#8 0#4).pc.toNat + 4) := by decide

theorem test_witness_BranchT4 :
    ((b4 0x2C#8 0#4).t = .t32 ∧ pcAligned (b4 0x2C#8 0#4) = true ∧
      (b4 0x2C#8 0#4).itstate.extractLsb' 0 4 ≠ 0b0000#4 ∧
      (b4 0x2C#8 0#4).itstate.extractLsb' 0 4 ≠ 0b1000#4) ∧
    ((b4 0xF8#8 0#4).itstate.extractLsb' 0 4 = 0b1000#4 ∧
      (b4 0xF8#8 0#4).itstate.extractLsb' 4 4 = 0b1111#4) ∧
    (b4 0#8 0#4).itstate.extractLsb' 0 4 = 0b0000#4 ∧
    ((b4 0x28#8 0#4).itstate.extractLsb' 0 4 = 0b1000#4 ∧
      (b4 0x28#8 0#4).itstate.extractLsb' 4 4 = Cond.bits .cs ∧
      conditionHolds .cs (b4 0x28#8 0b0010#4) = true ∧ conditionHolds .cs (b4 0x28#8 0#4) = false ∧
      (b4 0x28#8 0#4).pc.toNat + 4 < 4294967296) ∧
    ((top .t32 0x28#8 0#4).itstate.extractLsb' 4 4 = Cond.bits .cs ∧
      conditionHolds .cs (top .t32 0x28#8 0#4) = false ∧
      4294967296 ≤ (top .t32 0x28#8 0#4).pc.toNat + 4) := by decide

theorem test_witness_UnpredictableCases :
    refusal (exec (.bT1 .eq 0#8) (b2 0x08#8 0#4)) = some .unpredictable ∧
    refusal (exec (.bT2 2#11) (b2 0x14#8 0#4)) = some .unpredictable ∧
    refusal (exec (.bT3 0#1 .eq 0#6 0#1 0#1 0#11) (b4 0x08#8 0#4)) = some .unpredictable ∧
    refusal (exec (.bT4 0#1 1#10 1#1 1#1 0#11) (b4 0x2C#8 0#4)) = some .unpredictable := by decide

/-- Both outcomes of each kind of branch, for `FrameOfBranch`. -/
theorem test_witness_FrameOfBranch :
    after (exec (.bA1 .eq 2#24) (beq 0#4)) = some (0x8004#32, 0#8) ∧
    after (exec (.bA1 .eq 2#24) (beq 0b0100#4)) = some (0x8010#32, 0#8) ∧
    after (exec (.bT4 0#1 1#10 1#1 1#1 0#11) (b4 0x28#8 0b0010#4)) = some (0x5004#32, 0#8) ∧
    after (exec (.bT4 0#1 1#10 1#1 1#1 0#11) (b4 0x28#8 0#4)) = some (0x4004#32, 0#8) := by decide

theorem test_witness_MeaningsOutsideTheirEncoding :
    (b2 0#8 0#4).t ≠ Instr.set (.bA1 .al 0#24) ∧ (beq 0#4).t ≠ Instr.set (.bT2 0#11) ∧
    (b2 0#8 0#4).t = .t32 := by decide

/-- E1, E3 and E2, and the same `BEQ` at two addresses. -/
theorem test_witness_CornerCasesOfBranch :
    (pcAligned (beq 0#4) = true ∧ currentCond (.bA1 .al 0xFFFFFE#24) (beq 0#4) = some .al ∧
      conditionHolds .al (beq 0#4) = true ∧
      after (exec (.bA1 .al 0xFFFFFE#24) (beq 0#4)) = some (0x8000#32, 0#8) ∧
      imm32 (.bA1 .al 0xFFFFFE#24) = 0#32 - pcReadOffset (beq 0#4).t) ∧
    (after (exec (.bA1 .al 0xFFFFFF#24) (beq 0#4)) = some (0x8004#32, 0#8) ∧
      imm32 (.bA1 .al 0xFFFFFF#24) =
        BitVec.ofNat 32 (Instr.ilen (.bA1 .al 0xFFFFFF#24)) - pcReadOffset (beq 0#4).t) ∧
    (after (exec (.bA1 .al 0#24) (beq 0#4)) = some (0x8008#32, 0#8) ∧
      imm32 (.bA1 .al 0#24) = 0#32) ∧
    ((beq 0#4).t = Instr.set (.bA1 .eq 2#24) ∧ pcAligned (beq 0#4) = true) ∧
    (pcAligned (top .a32 0#8 0b0100#4) = true ∧ pcAligned (beq 0b0100#4) = true ∧
      (top .a32 0#8 0b0100#4).itstate = (beq 0b0100#4).itstate ∧
      after (exec (.bA1 .eq 2#24) (top .a32 0#8 0b0100#4)) = some (0x0000000C#32, 0#8) ∧
      after (exec (.bA1 .eq 2#24) (beq 0b0100#4)) = some (0x8010#32, 0#8)) := by decide

/-- For `StepRunsDecodedInstruction` and `StepRunsEncodedInstruction`. -/
theorem test_witness_StepRunsInstruction :
    ¬(b4 0#8 0#4).Final ∧ (b4 0#8 0#4).Admissible ∧
    fetch (b4 0#8 0#4) = some [0x01#8, 0xF0#8, 0x00#8, 0xB8#8] ∧
    decode (b4 0#8 0#4).t [0x01#8, 0xF0#8, 0x00#8, 0xB8#8] =
      .instr (.bT4 0#1 1#10 1#1 1#1 0#11) [] ∧
    (Instr.bT4 0#1 1#10 1#1 1#1 0#11).wellFormed = true ∧
    (b4 0#8 0#4).t = Instr.set (.bT4 0#1 1#10 1#1 1#1 0#11) ∧
    readBytes (b4 0#8 0#4).programText (b4 0#8 0#4).pc 4 =
      some (encode (.bT4 0#1 1#10 1#1 1#1 0#11)) := by decide

/-- A final, a misaligned (E15), an illegal (E16), an unmapped and a `notB` state (E17), and a `B` that is
not placed as R154 says (E26), for `OrderOfTheChecks`, `CausesOfAStop`, `AlignmentOfPc` and
`LegalItStates`. -/
theorem test_witness_OrderOfTheChecks :
    fault (step (at' .a32 0x200#32 0#4 0#8 [])) = some .halted ∧
    (pcAligned (at' .a32 0x8002#32 0#4 0#8 []) = false ∧
      refusal (step (at' .a32 0x8002#32 0#4 0#8 [])) = some .misalignedPc) ∧
    (pcAligned (at' .a32 0x8000#32 0#4 0x08#8 []) = true ∧
      itLegal (at' .a32 0x8000#32 0#4 0x08#8 []) = false ∧
      refusal (step (at' .a32 0x8000#32 0#4 0x08#8 [])) = some .illegalItState) ∧
    (itLegal (at' .a32 0x8000#32 0#4 0#8 []) = true ∧ fetch (at' .a32 0x8000#32 0#4 0#8 []) = none ∧
      fault (step (at' .a32 0x8000#32 0#4 0#8 [])) = some .fetchOutsideProgramText) ∧
    refusal (step (at' .a32 0x8000#32 0#4 0#8 [0#8, 0#8, 0#8, 0xEB#8])) =
      some (.notB .notBPattern) ∧
    (fetch (at' .t32 0x1000#32 0b0100#4 0x08#8 [0x00#8, 0xD0#8]) = some [0x00#8, 0xD0#8] ∧
      decode .t32 [0x00#8, 0xD0#8] = .instr (.bT1 .eq 0#8) [] ∧
      ¬ItPlaced (.bT1 .eq 0#8) (at' .t32 0x1000#32 0b0100#4 0x08#8 [0x00#8, 0xD0#8]) ∧
      refusal (step (at' .t32 0x1000#32 0b0100#4 0x08#8 [0x00#8, 0xD0#8])) =
        some .unpredictable) := by decide

/-- E40 and E68: the remaining refusals of `OrderOfTheChecks` and `CausesOfAStop`. -/
theorem test_witness_CausesOfAStop :
    (¬(b2 0xF8#8 0#4).Final ∧ (b2 0xF8#8 0#4).Admissible ∧
      fetch (b2 0xF8#8 0#4) = some [0x02#8, 0xE0#8] ∧
      decode .t32 [0x02#8, 0xE0#8] = .instr (.bT2 2#11) [] ∧ ItPlaced (.bT2 2#11) (b2 0xF8#8 0#4) ∧
      currentCond (.bT2 2#11) (b2 0xF8#8 0#4) = none ∧
      refusal (step (b2 0xF8#8 0#4)) = some .itConditionReserved) ∧
    refusal (step (at' .t32 0xFFFFFFFE#32 0#4 0#8 [0x00#8, 0xD0#8])) =
      some .pastTopOfAddressSpace := by decide

/-- E15, E29, and E41 with the legal and illegal IT-states beside it. -/
theorem test_witness_AlignmentAndItStates :
    (¬(at' .a32 0x8002#32 0#4 0#8 []).Final ∧ pcAligned (at' .a32 0x8002#32 0#4 0#8 []) = false) ∧
    (¬(at' .t32 0x1001#32 0#4 0#8 []).Final ∧ pcAligned (at' .t32 0x1001#32 0#4 0#8 []) = false) ∧
    (¬(b2 0x30#8 0#4).Final ∧ pcAligned (b2 0x30#8 0#4) = true ∧ itLegal (b2 0x30#8 0#4) = false) ∧
    itLegal (b2 0x31#8 0#4) = true ∧ itLegal (b2 0x00#8 0#4) = true := by decide

theorem test_witness_FetchAndByteOrder :
    (¬(at' .a32 0x8000#32 0#4 0#8 []).Final ∧ (at' .a32 0x8000#32 0#4 0#8 []).Admissible ∧
      fetch (at' .a32 0x8000#32 0#4 0#8 []) = none) ∧
    ((beq 0#4).t = .a32 ∧ Memory.read (beq 0#4).programText (beq 0#4).pc.toNat = some 0x02#8 ∧
      Memory.read (beq 0#4).programText ((beq 0#4).pc + 1#32).toNat = some 0x00#8 ∧
      Memory.read (beq 0#4).programText ((beq 0#4).pc + 2#32).toNat = some 0x00#8 ∧
      Memory.read (beq 0#4).programText ((beq 0#4).pc + 3#32).toNat = some 0x0A#8) ∧
    (isWideT32 (leHalf 0x02#8 0xE0#8) = false ∧
      Memory.read (b2 0#8 0#4).programText (b2 0#8 0#4).pc.toNat = some 0x02#8 ∧
      Memory.read (b2 0#8 0#4).programText ((b2 0#8 0#4).pc + 1#32).toNat = some 0xE0#8) ∧
    (isWideT32 (leHalf 0x01#8 0xF0#8) = true ∧
      Memory.read (b4 0#8 0#4).programText (b4 0#8 0#4).pc.toNat = some 0x01#8 ∧
      Memory.read (b4 0#8 0#4).programText ((b4 0#8 0#4).pc + 1#32).toNat = some 0xF0#8 ∧
      Memory.read (b4 0#8 0#4).programText ((b4 0#8 0#4).pc + 2#32).toNat = some 0x00#8 ∧
      Memory.read (b4 0#8 0#4).programText ((b4 0#8 0#4).pc + 3#32).toNat = some 0xB8#8) ∧
    (Memory.read (at' .t32 0x1000#32 0#4 0#8 [0x00#8, 0xEA#8]).programText 0x1000 = some 0x00#8 ∧
      Memory.read (at' .t32 0x1000#32 0#4 0#8 [0x00#8, 0xEA#8]).programText 0x1001 = some 0xEA#8 ∧
      isWideT32 (leHalf 0x00#8 0xEA#8) = true ∧
      Memory.read (at' .t32 0x1000#32 0#4 0#8 [0x00#8, 0xEA#8]).programText 0x1002 = none) ∧
    (Memory.read (top .a32 0#8 0#4).programText
      ((top .a32 0#8 0#4).pc + BitVec.ofNat 32 3).toNat = none ∧
      Memory.read (top .t32 0#8 0#4).programText
        ((top .t32 0#8 0#4).pc + BitVec.ofNat 32 1).toNat = none) := by decide

/-- A taken `B` of T2 in an IT block and a `BEQ` that falls through. -/
theorem test_witness_AdmittedStepCompletes :
    (¬(b2 0x18#8 0#4).Final ∧ (b2 0x18#8 0#4).Admissible ∧ (Instr.bT2 2#11).wellFormed = true ∧
      (b2 0x18#8 0#4).t = Instr.set (.bT2 2#11) ∧
      readBytes (b2 0x18#8 0#4).programText (b2 0x18#8 0#4).pc 2 = some (encode (.bT2 2#11)) ∧
      ItPlaced (.bT2 2#11) (b2 0x18#8 0#4) ∧
      currentCond (.bT2 2#11) (b2 0x18#8 0#4) = some .ne ∧
      conditionHolds .ne (b2 0x18#8 0#4) = true) ∧
    (¬(beq 0#4).Final ∧ (beq 0#4).Admissible ∧ (Instr.bA1 .eq 2#24).wellFormed = true ∧
      (beq 0#4).t = Instr.set (.bA1 .eq 2#24) ∧
      readBytes (beq 0#4).programText (beq 0#4).pc 4 = some (encode (.bA1 .eq 2#24)) ∧
      ItPlaced (.bA1 .eq 2#24) (beq 0#4) ∧ currentCond (.bA1 .eq 2#24) (beq 0#4) = some .eq ∧
      conditionHolds .eq (beq 0#4) = false ∧ (beq 0#4).pc.toNat + 4 < 4294967296) := by decide

theorem test_witness_StepKeepsInv :
    (beq 0b0100#4).Inv ∧ after (step (beq 0b0100#4)) = some (0x8010#32, 0#8) ∧
    (b2 0x18#8 0#4).Inv ∧ after (step (b2 0x18#8 0#4)) = some (0x2008#32, 0#8) := by decide

theorem test_witness_RunKeepsLaunchValues :
    after (run 1 (beq 0b0100#4)) = some (0x8010#32, 0#8) := by decide

/-- The `ProgramText` of the second state lists one byte more, at the target of the branch. -/
theorem test_witness_StepSeesOnlyFetchedBytes :
    fetch (beq 0b0100#4) = some [0x02#8, 0x00#8, 0x00#8, 0x0A#8] ∧
    fetch { beq 0b0100#4 with
      programText := Memory.write (beq 0b0100#4).programText 0x8010 0xEA#8 } =
      some [0x02#8, 0x00#8, 0x00#8, 0x0A#8] := by decide

/-- A final state, a stuck one, and E43: `BEQ.W` to itself with the condition holding. -/
theorem test_witness_EndAndHangOfARun :
    (at' .a32 0x200#32 0#4 0#8 []).Final ∧
    (¬(at' .a32 0x8000#32 0#4 0#8 []).Final ∧
      fault (step (at' .a32 0x8000#32 0#4 0#8 [])) = some .fetchOutsideProgramText) ∧
    ¬(beqW 0b0100#4).Final ∧ (beqW 0b0100#4).Admissible ∧
    (Instr.bT3 1#1 .eq 0x3F#6 1#1 1#1 0x7FE#11).wellFormed = true ∧
    (beqW 0b0100#4).t = Instr.set (.bT3 1#1 .eq 0x3F#6 1#1 1#1 0x7FE#11) ∧
    readBytes (beqW 0b0100#4).programText (beqW 0b0100#4).pc 4 =
      some (encode (.bT3 1#1 .eq 0x3F#6 1#1 1#1 0x7FE#11)) ∧
    imm32 (.bT3 1#1 .eq 0x3F#6 1#1 1#1 0x7FE#11) = 0#32 - pcReadOffset (beqW 0b0100#4).t ∧
    currentCond (.bT3 1#1 .eq 0x3F#6 1#1 1#1 0x7FE#11) (beqW 0b0100#4) = some .eq ∧
    conditionHolds .eq (beqW 0b0100#4) = true ∧ ItPlaced (.bT3 1#1 .eq 0x3F#6 1#1 1#1 0x7FE#11)
      (beqW 0b0100#4) := by decide

/-- For the same statement: T2 to itself, last in an IT block whose condition NE holds. -/
theorem test_witness_HangLastInItBlock :
    ¬(at' .t32 0x2000#32 0#4 0x18#8 [0xFE#8, 0xE7#8]).Final ∧
    (at' .t32 0x2000#32 0#4 0x18#8 [0xFE#8, 0xE7#8]).Admissible ∧
    ItPlaced (.bT2 0x7FE#11) (at' .t32 0x2000#32 0#4 0x18#8 [0xFE#8, 0xE7#8]) ∧
    readBytes (at' .t32 0x2000#32 0#4 0x18#8 [0xFE#8, 0xE7#8]).programText 0x2000#32 2 =
      some (encode (.bT2 0x7FE#11)) ∧
    imm32 (.bT2 0x7FE#11) = 0#32 - pcReadOffset .t32 ∧
    currentCond (.bT2 0x7FE#11) (at' .t32 0x2000#32 0#4 0x18#8 [0xFE#8, 0xE7#8]) = some .ne ∧
    conditionHolds .ne (at' .t32 0x2000#32 0#4 0x18#8 [0xFE#8, 0xE7#8]) = true := by decide

/-- The bounds of D00's permitted offsets (95_test_vectors.md section 1). -/
theorem test_witness_ImmediateAssemblyInverse :
    permits .a1 0xFE000000#32 = true ∧ permits .a1 0x01FFFFFC#32 = true ∧
    permits .t1 0xFFFFFF00#32 = true ∧ permits .t1 0x000000FE#32 = true ∧
    permits .t2 0xFFFFF800#32 = true ∧ permits .t2 0x000007FE#32 = true ∧
    permits .t3 0xFFF00000#32 = true ∧ permits .t3 0x000FFFFE#32 = true ∧
    permits .t4 0xFF000000#32 = true ∧ permits .t4 0x00FFFFFE#32 = true ∧
    permits .a1 2#32 = false ∧ permits .t1 256#32 = false ∧ permits .t4 1#32 = false ∧
    (imm32T4 0#1 0#10 1#1 1#1 0#11).extractLsb' 22 2 = 0b00#2 ∧
    (imm32T4 1#1 0x3FF#10 1#1 1#1 0x7FE#11).extractLsb' 22 2 = 0b11#2 := by decide

theorem test_witness_EncodingSelection :
    ((beq 0#4).t = .a32 ∧ permits .a1 8#32 = true) ∧
    ((b2 0#8 0#4).t = .t32 ∧ (b2 0#8 0#4).itstate.extractLsb' 0 4 = 0b0000#4 ∧
      permits .t1 254#32 = true ∧ permits .t1 256#32 = false ∧ permits .t3 256#32 = true) ∧
    ((b2 0x18#8 0#4).t = .t32 ∧ (b2 0x18#8 0#4).itstate.extractLsb' 0 4 = 0b1000#4 ∧
      (b2 0x18#8 0#4).itstate.extractLsb' 4 4 = Cond.bits .ne ∧ permits .t2 2046#32 = true ∧
      permits .t2 2048#32 = false ∧ permits .t4 2048#32 = true) := by decide

/-- For `AssembledBranchReachesLabel` and `DisassemblyShowsLabel`: `BNE` last in its block. -/
theorem test_witness_AssembledBranchReachesLabel :
    (b2 0x18#8 0#4).Admissible ∧
    assemble (b2 0x18#8 0#4) (some .ne) .omitted 0x2008#32 = some (.bT2 2#11) ∧
    conditionHolds .ne (b2 0x18#8 0#4) = true ∧
    assemble (beq 0#4) none .wide 0x8010#32 = some (.bA1 .al 2#24) ∧
    conditionHolds .al (beq 0#4) = true ∧ (b2 0#8 0#4).itstate.extractLsb' 0 4 = 0b0000#4 := by decide

theorem test_witness_StateAfterAStep :
    after (step (beq 0#4)) = some (0x8004#32, 0#8) ∧
    after (step (b2 0x18#8 0#4)) = some (0x2008#32, 0#8) := by decide

end Sys2Proof.Tests
end

/-! ## What the decoder's bytes are -/

section

namespace Sys2Proof

/-- What `decode` read when it read an instruction: a well-formed one of the instruction set it decodes
for, whose encoding stands in front of the bytes that are left (R60 to R65, R73 to R77). -/
theorem decode_instr {set : InstrSet} {bytes rest : List Byte} {i : Instr}
    (h : decode set bytes = .instr i rest) :
    i.wellFormed = true ∧ i.set = set ∧ bytes = encode i ++ rest := by
  unfold decode at h
  split at h
  · obtain ⟨hv, rfl⟩ := Verdict.followedBy_instr h
    obtain ⟨cond, imm24, rfl, henc⟩ := decodeA32_isB hv
    exact ⟨rfl, rfl, by simp [encode, henc, wordBytes_leWord]⟩
  · split at h
    · split at h
      · obtain ⟨hv, rfl⟩ := Verdict.followedBy_instr h
        obtain ⟨hwf, hset, -, henc⟩ := decodeT32_isB hv
        exact ⟨hwf, hset, by simp [henc, halfBytes_leHalf]⟩
      · cases h
    · obtain ⟨hv, rfl⟩ := Verdict.followedBy_instr h
      obtain ⟨hwf, hset, -, henc⟩ := decodeT16_isB hv
      exact ⟨hwf, hset, by simp [henc, halfBytes_leHalf]⟩
  · cases h

/-- The one field value that names no condition (R102). -/
theorem Cond.eq_of_ofBits_eq_none {b : BitVec 4} (h : Cond.ofBits b = none) : b = 0b1111#4 := by
  revert b
  decide

end Sys2Proof

end

/-! ## The value read from PC and the IT-state -/

section

namespace Sys2Proof.Machine

variable {s : State}

theorem pcRead_toNat_a32 (ht : s.t = .a32) :
    (pcRead s).toNat = (s.pc.toNat + 8) % 4294967296 := by
  simp [pcRead, pcReadOffset, ht, Config.pcReadOffsetA32]

theorem pcRead_toNat_t32 (ht : s.t = .t32) :
    (pcRead s).toNat = (s.pc.toNat + 4) % 4294967296 := by
  simp [pcRead, pcReadOffset, ht, Config.pcReadOffsetT32]

theorem itLegal_a32_iff (ht : s.t = .a32) : itLegal s = true ↔ s.itstate.toNat = 0 := by
  simp [itLegal, ht, ← BitVec.toNat_inj]

theorem itLegal_t32_iff (ht : s.t = .t32) :
    itLegal s = true ↔ s.itstate.toNat = 0 ∨ s.itstate.toNat % 16 ≠ 0 := by
  simp [itLegal, ht, ← BitVec.toNat_inj]

/-- No condition comes from the IT-state only in an IT block whose `ITSTATE[7:4]` is 1111 (R101). -/
theorem itCondition_eq_none (h : itCondition s = none) :
    inITBlock s = true ∧ s.itstate.extractLsb' 4 4 = 0b1111#4 := by
  unfold itCondition at h
  split at h
  · rename_i hin
    exact ⟨hin, Cond.eq_of_ofBits_eq_none h⟩
  · cases h

/-- Where T2 and T4 may stand (R154) and no condition comes from the IT-state, the block is at its last
instruction. -/
theorem lastInITBlock_of_no_condition (hp : inITBlock s = false ∨ lastInITBlock s = true)
    (hc : itCondition s = none) : lastInITBlock s = true := by
  obtain ⟨hin, -⟩ := itCondition_eq_none hc
  exact hp.resolve_left (by simp [hin])

/-- There the IT-state is 0xF8: the condition 1111 above the low half 1000. -/
theorem itstate_eq_F8_of_no_condition (hp : inITBlock s = false ∨ lastInITBlock s = true)
    (hc : itCondition s = none) : s.itstate = 0xF8#8 := by
  have hlow : s.itstate.extractLsb' 0 4 = 0b1000#4 := by
    simpa [lastInITBlock] using lastInITBlock_of_no_condition hp hc
  obtain ⟨-, hhigh⟩ := itCondition_eq_none hc
  calc s.itstate = s.itstate.extractLsb' 4 4 ++ s.itstate.extractLsb' 0 4 := by
        rw [BitVec.extractLsb'_append_extractLsb'_eq_extractLsb' (by omega)]
        simp
    _ = 0xF8#8 := by rw [hhigh, hlow]; rfl

/-- A placed instruction has no current condition in the IT-state 0xF8 only (R101, R154). -/
theorem itstate_eq_F8_of_placed {i : Instr} (hp : ItPlaced i s) (hc : currentCond i s = none) :
    s.itstate = 0xF8#8 := by
  cases i with
  | bA1 | bT1 | bT3 => cases hc
  | bT2 | bT4 => exact itstate_eq_F8_of_no_condition hp hc

end Sys2Proof.Machine

end

/-! ## Why a meaning refuses -/

section

namespace Sys2Proof.Machine

variable {s : State}

theorem sequentialAdvance_refused {ilen : Nat} {r : Refusal}
    (h : sequentialAdvance ilen s = .refused r) :
    r = .pastTopOfAddressSpace ∧ 4294967296 ≤ s.pc.toNat + ilen := by
  unfold sequentialAdvance at h
  split at h
  · cases h
  · rename_i noRoom
    cases h
    exact ⟨rfl, Nat.le_of_not_lt noRoom⟩

/-- An execute block refuses only to fall through past the top of the address space (R106). -/
theorem executeBlock_refused {cond : Cond} {offset : Word} {ilen : Nat} {r : Refusal}
    (h : executeBlock cond offset ilen s = .refused r) :
    r = .pastTopOfAddressSpace ∧ conditionHolds cond s = false ∧
      4294967296 ≤ s.pc.toNat + ilen := by
  unfold executeBlock at h
  split at h
  · cases h
  · rename_i fails
    obtain ⟨hr, htop⟩ := sequentialAdvance_refused h
    exact ⟨hr, by simpa using fails, htop⟩

theorem condBranchT32_of_not_placed {see : NotB} {cond : Cond} {offset : Word} {ilen : Nat}
    (ht : s.t = .t32) (hc : cond ≠ .al) (hp : ¬inITBlock s = false) :
    condBranchT32 see cond offset ilen s = .refused .unpredictable := by
  simp [condBranchT32, ht, hc, Bool.eq_true_of_not_eq_false hp]

theorem itBranchT32_of_not_placed {offset : Word} {ilen : Nat} (ht : s.t = .t32)
    (hp : ¬(inITBlock s = false ∨ lastInITBlock s = true)) :
    itBranchT32 offset ilen s = .refused .unpredictable := by
  obtain ⟨hin, hlast⟩ := not_or.mp hp
  simp [itBranchT32, ht, Bool.eq_true_of_not_eq_false hin, Bool.eq_false_of_not_eq_true hlast]

theorem itBranchT32_of_no_condition {offset : Word} {ilen : Nat} (ht : s.t = .t32)
    (hp : inITBlock s = false ∨ lastInITBlock s = true) (hc : itCondition s = none) :
    itBranchT32 offset ilen s = .refused .itConditionReserved := by
  simp [itBranchT32, ht, lastInITBlock_of_no_condition hp hc, hc]

/-- A well-formed instruction of the instruction set in force that is not placed as the IT block allows
is UNPREDICTABLE (R114). -/
theorem exec_of_not_placed {i : Instr} (hw : i.wellFormed = true) (hs : s.t = i.set)
    (hp : ¬ItPlaced i s) : exec i s = .refused .unpredictable := by
  cases i with
  | bA1 => exact absurd trivial hp
  | bT1 => exact condBranchT32_of_not_placed hs (by simpa [Instr.wellFormed] using hw) hp
  | bT2 => exact itBranchT32_of_not_placed hs hp
  | bT3 => exact condBranchT32_of_not_placed hs (by simpa [Instr.wellFormed] using hw) hp
  | bT4 => exact itBranchT32_of_not_placed hs hp

/-- A placed instruction that gets the condition 1111 from the IT-state is refused (R101). -/
theorem exec_of_no_condition {i : Instr} (hs : s.t = i.set) (hp : ItPlaced i s)
    (hc : currentCond i s = none) : exec i s = .refused .itConditionReserved := by
  cases i with
  | bA1 | bT1 | bT3 => cases hc
  | bT2 | bT4 => exact itBranchT32_of_no_condition hs hp hc

/-- The three refusals of a well-formed instruction in its own instruction set, in the order of R134. -/
theorem exec_refused {i : Instr} {r : Refusal} (hw : i.wellFormed = true) (hs : s.t = i.set)
    (h : exec i s = .refused r) :
    (r = .unpredictable ∧ ¬ItPlaced i s) ∨
    (r = .itConditionReserved ∧ ItPlaced i s ∧ currentCond i s = none) ∨
    (r = .pastTopOfAddressSpace ∧ ∃ cond, currentCond i s = some cond ∧
      conditionHolds cond s = false ∧ 4294967296 ≤ s.pc.toNat + i.ilen) := by
  by_cases hp : ItPlaced i s
  · cases hc : currentCond i s with
    | none =>
      rw [exec_of_no_condition hs hp hc] at h
      cases h
      exact .inr (.inl ⟨rfl, hp, rfl⟩)
    | some cond =>
      rw [exec_eq_executeBlock hw hs hp hc] at h
      obtain ⟨hr, hfails, htop⟩ := executeBlock_refused h
      exact .inr (.inr ⟨hr, cond, rfl, hfails, htop⟩)
  · rw [exec_of_not_placed hw hs hp] at h
    cases h
    exact .inl ⟨rfl, hp⟩

/-- No meaning answers a fault (R130). -/
theorem exec_ne_fault {i : Instr} {f : Fault} : exec i s ≠ .fault f := by
  cases i with
  | bA1 =>
    simp only [exec, execBA1]
    split
    · simp
    · exact executeBlock_ne_fault
  | bT1 | bT3 => exact condBranchT32_ne_fault
  | bT2 | bT4 => exact itBranchT32_ne_fault

end Sys2Proof.Machine

end

/-! ## Why a step stops -/

section

namespace Sys2Proof.Machine

variable {s : State}

/-- The faults of `issue`: the run is over (R156), or a byte of the instruction is missing (R43). -/
theorem issue_fault {f : Fault} (h : issue s = .fault f) :
    (f = .halted ∧ s.pc = s.haltAddr) ∨ (f = .fetchOutsideProgramText ∧ fetch s = none) := by
  unfold issue at h
  split at h
  · rename_i final
    cases h
    exact .inl ⟨rfl, final⟩
  · split at h
    · cases h
    · split at h
      · cases h
      · split at h
        · rename_i missing
          cases h
          exact .inr ⟨rfl, missing⟩
        · rename_i bytes hf
          split at h
          · cases h
          · cases h
          · rename_i truncated
            exact absurd truncated (decode_fetch_ne_truncated hf)

/-- The refusals of `issue` (R25, R44, R76). -/
theorem issue_refused {r : Refusal} (h : issue s = .refused r) :
    (r = .misalignedPc ∧ pcAligned s = false) ∨ (r = .illegalItState ∧ itLegal s = false) ∨
    ∃ reason bytes, r = .notB reason ∧ fetch s = some bytes ∧ decode s.t bytes = .notB reason := by
  unfold issue at h
  split at h
  · cases h
  · split at h
    · rename_i misaligned
      cases h
      exact .inl ⟨rfl, misaligned⟩
    · split at h
      · rename_i illegal
        cases h
        exact .inr (.inl ⟨rfl, illegal⟩)
      · split at h
        · cases h
        · rename_i bytes hf
          split at h
          · cases h
          · rename_i reason hd
            cases h
            exact .inr (.inr ⟨reason, bytes, rfl, hf, hd⟩)
          · cases h

theorem issue_of_illegalItState (hf : ¬s.Final) (ha : pcAligned s = true) (hi : itLegal s = false) :
    issue s = .refused .illegalItState := by
  simp [issue, hf, ha, hi]

/-- A step refuses where `issue` does. -/
theorem step_of_issue_refused {r : Refusal} (h : issue s = .refused r) : step s = .refused r := by
  simp [step, h]

/-- Only `issue` answers a fault. -/
theorem step_fault {f : Fault} (h : step s = .fault f) : issue s = .fault f := by
  unfold step at h
  split at h
  · exact absurd h exec_ne_fault
  · rename_i hi
    cases h
    exact hi
  · cases h

/-- A refused step: `issue` refused, or the meaning of the issued instruction did. -/
theorem step_refused {r : Refusal} (h : step s = .refused r) :
    issue s = .refused r ∨ ∃ i, issue s = .next i ∧ exec i s = .refused r := by
  unfold step at h
  split at h
  · rename_i i hi
    exact .inr ⟨i, hi, h⟩
  · cases h
  · rename_i hi
    cases h
    exact .inl hi

/-- An issued instruction was decoded from the fetched bytes, is well formed and belongs to the
instruction set in force. -/
theorem issue_next_decoded {i : Instr} (h : issue s = .next i) :
    i.wellFormed = true ∧ s.t = i.set ∧
      ∃ bytes rest, fetch s = some bytes ∧ decode s.t bytes = .instr i rest := by
  obtain ⟨-, -, -, bytes, rest, hf, hd⟩ := issue_next h
  obtain ⟨hw, hset, -⟩ := decode_instr hd
  exact ⟨hw, hset.symm, bytes, rest, hf, hd⟩

end Sys2Proof.Machine

end

/-! ## What a step and a run leave unchanged -/

section

namespace Sys2Proof.Machine

variable {s s' : State}

/-- Taken or not, an execute block changes `pc` and advances the IT-state (R100, R105). -/
theorem executeBlock_frame {cond : Cond} {offset : Word} {ilen : Nat}
    (h : executeBlock cond offset ilen s = .next s') :
    s' = { s with pc := s'.pc, itstate := (itAdvance s).itstate } := by
  obtain ⟨-, rfl⟩ | ⟨-, -, rfl⟩ := executeBlock_next h
  · rfl
  · rfl

theorem exec_frame {i : Instr} (h : exec i s = .next s') :
    s' = { s with pc := s'.pc, itstate := (itAdvance s).itstate } := by
  obtain ⟨-, cond, -, hx⟩ := exec_next h
  exact executeBlock_frame hx

theorem step_frame (h : step s = .next s') :
    s' = { s with pc := s'.pc, itstate := (itAdvance s).itstate } := by
  obtain ⟨i, -, hx⟩ := step_next h
  exact exec_frame hx

theorem run_succ_next {k : Nat} (h : run (k + 1) s = .next s') :
    ∃ s₁, step s = .next s₁ ∧ run k s₁ = .next s' := by
  unfold run at h
  split at h
  · rename_i s₁ hs
    exact ⟨s₁, hs, h⟩
  · cases h
  · cases h

/-- A run of any length changes nothing but `pc` and the IT-state. -/
theorem run_frame {k : Nat} (h : run k s = .next s') :
    s' = { s with pc := s'.pc, itstate := s'.itstate } := by
  induction k generalizing s with
  | zero =>
    cases h
    rfl
  | succ k ih =>
    obtain ⟨s₁, hstep, hrun⟩ := run_succ_next h
    have hfirst := step_frame hstep
    calc s' = { s₁ with pc := s'.pc, itstate := s'.itstate } := ih hrun
      _ = { s with pc := s'.pc, itstate := s'.itstate } := by rw [hfirst]

end Sys2Proof.Machine

end

/-! ## The obligations of the state -/

section

namespace Sys2Proof.Machine

/-- Settles O41: `run_frame`, read field by field. -/
theorem runKeepsLaunchValues : Obligations.RunKeepsLaunchValues := by
  intro k s s' h
  rw [run_frame h]
  exact ⟨rfl, rfl, rfl, rfl, rfl, rfl, rfl⟩

/-- Settles O27: every meaning that answers a next state ran the execute block, which leaves the rest. -/
theorem frameOfBranch : Obligations.FrameOfBranch := by
  intro i s s' h
  have hframe := exec_frame h
  exact ⟨hframe, fun a => congrArg (fun x => Memory.read x.programText a) hframe⟩

/-- Settles O34: a stop comes from `issue`, or is a refusal by the meaning of an instruction that was
decoded, so well formed and in its own instruction set. -/
theorem causesOfAStop : Obligations.CausesOfAStop := by
  intro s
  constructor
  · intro f h
    obtain ⟨rfl, final⟩ | ⟨rfl, missing⟩ := issue_fault (step_fault h)
    · exact final
    · exact missing
  · intro r h
    obtain hissue | ⟨i, hissue, hx⟩ := step_refused h
    · obtain ⟨rfl, misaligned⟩ | ⟨rfl, illegal⟩ | ⟨reason, bytes, rfl, hf, hd⟩ := issue_refused hissue
      · exact misaligned
      · exact illegal
      · exact ⟨bytes, hf, hd⟩
    · obtain ⟨hw, hset, bytes, rest, hf, hd⟩ := issue_next_decoded hissue
      obtain ⟨rfl, hp⟩ | ⟨rfl, hp, hc⟩ | ⟨rfl, cond, hc, hfails, htop⟩ := exec_refused hw hset hx
      · exact ⟨bytes, i, rest, hf, hd, hp⟩
      · exact ⟨itstate_eq_F8_of_placed hp hc, bytes, i, rest, hf, hd, hc⟩
      · exact ⟨bytes, i, rest, cond, hf, hd, hc, hfails, htop⟩

/-- Settles O36: the two equivalences for `itLegal`, and the third test of `issue`. -/
theorem legalItStates : Obligations.LegalItStates := fun _ =>
  ⟨itLegal_a32_iff, itLegal_t32_iff, fun hf ha hi =>
    step_of_issue_refused (issue_of_illegalItState hf ha hi)⟩

/-- Settles O13: one sum per instruction set. -/
theorem valueReadFromPc : Obligations.ValueReadFromPc := fun _ => ⟨pcRead_toNat_a32, pcRead_toNat_t32⟩

end Sys2Proof.Machine

end

/-! ## Byte order, and the decoder on an encoding -/

section

namespace Sys2Proof

/-- Concatenation puts its left part above its right one. -/
theorem toNat_append_eq_add {m n : Nat} (x : BitVec m) (y : BitVec n) :
    (x ++ y).toNat = x.toNat * 2 ^ n + y.toNat := by
  rw [BitVec.toNat_append, ← Nat.shiftLeft_add_eq_or_of_lt y.isLt, Nat.shiftLeft_eq]

theorem leHalf_toNat (b0 b1 : Byte) : (leHalf b0 b1).toNat = b0.toNat + 256 * b1.toNat := by
  rw [leHalf, toNat_append_eq_add]
  omega

theorem leWord_toNat (b0 b1 b2 b3 : Byte) :
    (leWord b0 b1 b2 b3).toNat =
      b0.toNat + 256 * b1.toNat + 65536 * b2.toNat + 16777216 * b3.toNat := by
  simp only [leWord, toNat_append_eq_add]
  omega

/-- The bytes of a well-formed instruction decode to it, whatever follows them. -/
theorem decode_encode {i : Instr} (hw : i.wellFormed = true) (rest : List Byte) :
    decode i.set (encode i ++ rest) = .instr i rest := by
  cases i with
  | bA1 => exact Laws.RoundTrip.bA1 _ _ hw rest
  | bT1 => exact Laws.RoundTrip.bT1 _ _ hw rest
  | bT2 => exact Laws.RoundTrip.bT2 _ hw rest
  | bT3 => exact Laws.RoundTrip.bT3 _ _ _ _ _ _ hw rest
  | bT4 => exact Laws.RoundTrip.bT4 _ _ _ _ _ hw rest

end Sys2Proof

end

/-! ## What the fetch gives in each instruction set -/

section

namespace Sys2Proof.Machine

variable {s : State}

theorem readBytes_cons {m : Memory} {a : Word} {k : Nat} {b : Byte} {bs : List Byte}
    (hb : Memory.read m a.toNat = some b) (hbs : readBytes m (a + 1#32) k = some bs) :
    readBytes m a (k + 1) = some (b :: bs) := by
  rw [readBytes_succ, hb, hbs]

theorem readBytes_two {m : Memory} {a : Word} {b0 b1 : Byte} (h0 : Memory.read m a.toNat = some b0)
    (h1 : Memory.read m (a + 1#32).toNat = some b1) : readBytes m a 2 = some [b0, b1] :=
  readBytes_cons h0 (readBytes_cons h1 rfl)

/-- The two bytes after a halfword. -/
theorem readBytes_next_two {m : Memory} {a : Word} {b2 b3 : Byte}
    (h2 : Memory.read m (a + 2#32).toNat = some b2)
    (h3 : Memory.read m (a + 3#32).toNat = some b3) :
    readBytes m (a + 2#32) 2 = some [b2, b3] :=
  readBytes_two h2 (by rwa [BitVec.add_assoc])

theorem readBytes_four {m : Memory} {a : Word} {b0 b1 b2 b3 : Byte}
    (h0 : Memory.read m a.toNat = some b0) (h1 : Memory.read m (a + 1#32).toNat = some b1)
    (h2 : Memory.read m (a + 2#32).toNat = some b2)
    (h3 : Memory.read m (a + 3#32).toNat = some b3) :
    readBytes m a 4 = some [b0, b1, b2, b3] := by
  have hlast : readBytes m (a + 1#32 + 1#32) 2 = some [b2, b3] := by
    rw [BitVec.add_assoc]
    exact readBytes_next_two h2 h3
  exact readBytes_cons h0 (readBytes_cons h1 hlast)

theorem fetch_a32 (ht : s.t = .a32) : fetch s = readBytes s.programText s.pc 4 := by
  simp [fetch, ht]

theorem fetch_t32_narrow {b0 b1 : Byte} (ht : s.t = .t32)
    (h : readBytes s.programText s.pc 2 = some [b0, b1]) (hn : isWideT32 (leHalf b0 b1) = false) :
    fetch s = some [b0, b1] := by
  simp [fetch, ht, h, hn]

/-- The fetch of a 32-bit T32 instruction reads its second halfword after the first (R43, R71). -/
theorem fetch_t32_wide {b0 b1 : Byte} (ht : s.t = .t32)
    (h : readBytes s.programText s.pc 2 = some [b0, b1]) (hw : isWideT32 (leHalf b0 b1) = true) :
    fetch s = (readBytes s.programText (s.pc + 2#32) 2).map (fun more => b0 :: b1 :: more) := by
  cases hm : readBytes s.programText (s.pc + 2#32) 2 with
  | none => simp [fetch, ht, h, hw, hm]
  | some more => simp [fetch, ht, h, hw, hm]

theorem fetch_t32_none (ht : s.t = .t32) (h : readBytes s.programText s.pc 2 = none) :
    fetch s = none := by
  simp [fetch, ht, h]

/-- A missing byte among those the fetch always needs (R43). -/
theorem fetch_eq_none {k : Nat} (hk : k < 2 ∨ (s.t = .a32 ∧ k < 4))
    (h : Memory.read s.programText (s.pc + BitVec.ofNat 32 k).toNat = none) : fetch s = none := by
  cases ht : s.t with
  | a32 =>
    rw [fetch_a32 ht]
    exact readBytes_none (by omega) h
  | t32 =>
    have hk2 : k < 2 := hk.resolve_right (by simp [ht])
    exact fetch_t32_none ht (readBytes_none hk2 h)

/-- A missing byte of the second halfword (R43). -/
theorem fetch_t32_wide_eq_none {b0 b1 : Byte} (ht : s.t = .t32)
    (h : readBytes s.programText s.pc 2 = some [b0, b1]) (hw : isWideT32 (leHalf b0 b1) = true)
    (hnone : Memory.read s.programText (s.pc + 2#32).toNat = none ∨
      Memory.read s.programText (s.pc + 3#32).toNat = none) : fetch s = none := by
  have hmore : readBytes s.programText (s.pc + 2#32) 2 = none := by
    obtain h2 | h3 := hnone
    · exact readBytes_none (k := 0) (by omega) (by simpa using h2)
    · exact readBytes_none (k := 1) (by omega) (by simpa [BitVec.add_assoc] using h3)
  rw [fetch_t32_wide ht h hw, hmore]
  rfl

theorem fetch_halfBytes {hw1 : Half} (ht : s.t = .t32) (hn : isWideT32 hw1 = false)
    (h : readBytes s.programText s.pc 2 = some (halfBytes hw1)) : fetch s = some (halfBytes hw1) :=
  fetch_t32_narrow ht h (by rwa [leHalf_halves])

theorem fetch_halfBytes_append {hw1 hw2 : Half} (ht : s.t = .t32) (hw : isWideT32 hw1 = true)
    (h : readBytes s.programText s.pc 4 = some (halfBytes hw1 ++ halfBytes hw2)) :
    fetch s = some (halfBytes hw1 ++ halfBytes hw2) := by
  obtain ⟨hfirst, hsecond⟩ := readBytes_split (n := 2) (k := 2) rfl h
  rw [fetch_t32_wide ht hfirst (by rwa [leHalf_halves]), hsecond]
  rfl

/-- Where the encoding of an instruction of the set in force stands at `pc`, the fetch gives its
bytes, no fewer and no more (R43, R71). -/
theorem fetch_encode {i : Instr} (hs : s.t = i.set)
    (h : readBytes s.programText s.pc i.ilen = some (encode i)) : fetch s = some (encode i) := by
  cases i with
  | bA1 => exact (fetch_a32 hs).trans h
  | bT1 => exact fetch_halfBytes hs (isWideT32_encodeT1 _ _) h
  | bT2 => exact fetch_halfBytes hs (isWideT32_encodeT2 _) h
  | bT3 => exact fetch_halfBytes_append hs (isWideT32_encodeT3hw1 _ _ _) h
  | bT4 => exact fetch_halfBytes_append hs (isWideT32_encodeT4hw1 _ _) h

end Sys2Proof.Machine

end

/-! ## What `issue` finds, and the step after it -/

section

namespace Sys2Proof.Machine

variable {s : State}

theorem issue_of_misalignedPc (hf : ¬s.Final) (ha : pcAligned s = false) :
    issue s = .refused .misalignedPc := by
  simp [issue, hf, ha]

theorem issue_of_fetch_none (hf : ¬s.Final) (had : s.Admissible) (h : fetch s = none) :
    issue s = .fault .fetchOutsideProgramText := by
  simp [issue, hf, had, h]

theorem issue_of_decode {i : Instr} {bytes rest : List Byte} (hf : ¬s.Final) (had : s.Admissible)
    (h : fetch s = some bytes) (hd : decode s.t bytes = .instr i rest) : issue s = .next i := by
  simp [issue, hf, had, h, hd]

/-- A step stops where `issue` faults. -/
theorem step_of_issue_fault {f : Fault} (h : issue s = .fault f) : step s = .fault f := by
  simp [step, h]

/-- A step executes what `issue` found. -/
theorem step_of_issue_next {i : Instr} (h : issue s = .next i) : step s = exec i s := by
  simp [step, h]

/-- The bytes of an encoding at `pc` issue its instruction (R43, R71, R100). -/
theorem issue_encode {i : Instr} (hf : ¬s.Final) (had : s.Admissible) (hw : i.wellFormed = true)
    (hs : s.t = i.set) (h : readBytes s.programText s.pc i.ilen = some (encode i)) :
    issue s = .next i := by
  have hd : decode s.t (encode i) = .instr i [] := by
    simpa [hs] using decode_encode hw []
  exact issue_of_decode hf had (fetch_encode hs h) hd

end Sys2Proof.Machine

end

/-! ## Another `ProgramText` with the same fetched bytes -/

section

namespace Sys2Proof.Machine

/-- An outcome with another `ProgramText` in its next state, if it has one. -/
def outcomeWithProgramText (m : Memory) (o : Host.Outcome State Fault Refusal) :
    Host.Outcome State Fault Refusal :=
  match o with
  | .next s => .next { s with programText := m }
  | .fault f => .fault f
  | .refused r => .refused r

variable {s : State} {m : Memory}

/-- Of the tests of `issue`, the fetch alone reads `ProgramText`. -/
theorem issue_withProgramText (h : fetch { s with programText := m } = fetch s) :
    issue { s with programText := m } = issue s := by
  unfold issue
  rw [h]
  rfl

theorem conditionHolds_withProgramText {cond : Cond} :
    conditionHolds cond { s with programText := m } = conditionHolds cond s := rfl

theorem inITBlock_withProgramText : inITBlock { s with programText := m } = inITBlock s := rfl

theorem lastInITBlock_withProgramText :
    lastInITBlock { s with programText := m } = lastInITBlock s := rfl

theorem itCondition_withProgramText : itCondition { s with programText := m } = itCondition s := rfl

theorem sequentialAdvance_withProgramText {ilen : Nat} :
    sequentialAdvance ilen { s with programText := m } =
      outcomeWithProgramText m (sequentialAdvance ilen s) := by
  unfold sequentialAdvance
  split <;> rfl

theorem executeBlock_withProgramText {cond : Cond} {offset : Word} {ilen : Nat} :
    executeBlock cond offset ilen { s with programText := m } =
      outcomeWithProgramText m (executeBlock cond offset ilen s) := by
  unfold executeBlock
  rw [conditionHolds_withProgramText]
  split
  · rfl
  · exact sequentialAdvance_withProgramText

theorem condBranchT32_withProgramText {see : NotB} {cond : Cond} {offset : Word} {ilen : Nat} :
    condBranchT32 see cond offset ilen { s with programText := m } =
      outcomeWithProgramText m (condBranchT32 see cond offset ilen s) := by
  unfold condBranchT32
  split
  · rfl
  · split
    · rfl
    · rw [inITBlock_withProgramText]
      split
      · rfl
      · exact executeBlock_withProgramText

theorem itBranchT32_withProgramText {offset : Word} {ilen : Nat} :
    itBranchT32 offset ilen { s with programText := m } =
      outcomeWithProgramText m (itBranchT32 offset ilen s) := by
  unfold itBranchT32
  split
  · rfl
  · rw [inITBlock_withProgramText, lastInITBlock_withProgramText, itCondition_withProgramText]
    split
    · rfl
    · split
      · rfl
      · exact executeBlock_withProgramText

/-- No meaning reads `ProgramText` (R41). -/
theorem exec_withProgramText {i : Instr} :
    exec i { s with programText := m } = outcomeWithProgramText m (exec i s) := by
  cases i with
  | bA1 =>
    simp only [exec, execBA1]
    split
    · rfl
    · exact executeBlock_withProgramText
  | bT1 | bT3 => exact condBranchT32_withProgramText
  | bT2 | bT4 => exact itBranchT32_withProgramText

/-- A step sees `ProgramText` through its fetch only. -/
theorem step_withProgramText (h : fetch { s with programText := m } = fetch s) :
    step { s with programText := m } = outcomeWithProgramText m (step s) := by
  unfold step
  rw [issue_withProgramText h]
  cases issue s with
  | next i => exact exec_withProgramText
  | fault f => rfl
  | refused r => rfl

end Sys2Proof.Machine

end

/-! ## Alignment -/

section

namespace Sys2Proof.Machine

variable {s s' : State}

theorem pcAligned_a32_iff (ht : s.t = .a32) : pcAligned s = true ↔ s.pc.toNat % 4 = 0 := by
  simp [pcAligned, ht, ← BitVec.toNat_inj]

theorem pcAligned_t32_iff (ht : s.t = .t32) : pcAligned s = true ↔ s.pc.toNat % 2 = 0 := by
  simp [pcAligned, ht, ← BitVec.toNat_inj]

@[simp] theorem pcAligned_itAdvance : pcAligned (itAdvance s) = pcAligned s := rfl

/-- A branch target has its low bits forced to zero (R103). -/
@[simp] theorem pcAligned_branchWritePC {address : Word} {b : BranchType} :
    pcAligned (branchWritePC address b s) = true := by
  cases ht : s.t with
  | a32 =>
    rw [pcAligned_a32_iff (by simpa using ht), branchWritePC_pc_a32 _ _ _ ht, toNat_append_eq_add]
    simp
  | t32 =>
    rw [pcAligned_t32_iff (by simpa using ht), branchWritePC_pc_t32 _ _ _ ht, toNat_append_eq_add]
    simp

/-- The length of an instruction keeps the alignment of its instruction set (R9, R44). -/
theorem pcAligned_fallThrough {i : Instr} (hs : s.t = i.set) (ha : pcAligned s = true) :
    pcAligned { s with pc := s.pc + BitVec.ofNat 32 i.ilen } = true := by
  cases i with
  | bA1 =>
    simp only [pcAligned_a32_iff, hs, Instr.set, Instr.ilen, BitVec.toNat_add,
      BitVec.toNat_ofNat] at ha ⊢
    omega
  | bT1 | bT2 | bT3 | bT4 =>
    simp only [pcAligned_t32_iff, hs, Instr.set, Instr.ilen, BitVec.toNat_add,
      BitVec.toNat_ofNat] at ha ⊢
    omega

/-- Taken or not, a `B` at an aligned `pc` leaves an aligned `pc`. -/
theorem exec_pcAligned {i : Instr} (ha : pcAligned s = true) (h : exec i s = .next s') :
    pcAligned s' = true := by
  obtain ⟨hs, cond, -, hx⟩ := exec_next h
  obtain ⟨-, rfl⟩ | ⟨-, -, rfl⟩ := executeBlock_next hx
  · simp
  · simpa using pcAligned_fallThrough hs ha

end Sys2Proof.Machine

end

/-! ## The IT-state after a `B` -/

section

namespace Sys2Proof.Machine

variable {s s' : State}

theorem itAdvanceValue_eq_zero {it : BitVec 8} (h : it.toNat % 8 = 0) :
    itAdvanceValue it = 0#8 := by
  have hlow : it.extractLsb' 0 3 = 0b000#3 := by simpa [← BitVec.toNat_inj] using h
  simp [itAdvanceValue, hlow]

theorem itAdvanceValue_of_outside (h : inITBlock s = false) : itAdvanceValue s.itstate = 0#8 := by
  have hlow : s.itstate.toNat % 16 = 0 := by simpa [inITBlock, ← BitVec.toNat_inj] using h
  exact itAdvanceValue_eq_zero (by omega)

theorem itAdvanceValue_of_last (h : lastInITBlock s = true) : itAdvanceValue s.itstate = 0#8 := by
  have hlow : s.itstate.toNat % 16 = 8 := by simpa [lastInITBlock, ← BitVec.toNat_inj] using h
  exact itAdvanceValue_eq_zero (by omega)

/-- Where a `B` may stand, `ITAdvance()` leaves no IT block open: there is none, or it was the last
instruction of one (R105, R154). -/
theorem itAdvance_itstate_of_placed {i : Instr} (hs : s.t = i.set) (hl : itLegal s = true)
    (hp : ItPlaced i s) : (itAdvance s).itstate = 0#8 := by
  cases i with
  | bA1 =>
    rw [itAdvance_itstate_a32 s hs]
    simpa [itLegal, hs, Instr.set] using hl
  | bT1 | bT3 =>
    rw [itAdvance_itstate_t32 s hs]
    exact itAdvanceValue_of_outside hp
  | bT2 | bT4 =>
    rw [itAdvance_itstate_t32 s hs]
    exact hp.elim itAdvanceValue_of_outside itAdvanceValue_of_last

/-- A well-formed instruction that answers a next state is placed as the IT block allows (R114). -/
theorem exec_next_placed {i : Instr} (hw : i.wellFormed = true) (h : exec i s = .next s') :
    ItPlaced i s := by
  by_contra hp
  obtain ⟨hs, -⟩ := exec_next h
  rw [exec_of_not_placed hw hs hp] at h
  cases h

/-- A step ends with the IT-state zero (R105, R113). -/
theorem step_itstate (h : step s = .next s') : s'.itstate = 0#8 := by
  obtain ⟨i, hissue, hx⟩ := step_next h
  obtain ⟨-, -, hl, -⟩ := issue_next hissue
  obtain ⟨hw, hs, -⟩ := issue_next_decoded hissue
  rw [exec_frame hx]
  exact itAdvance_itstate_of_placed hs hl (exec_next_placed hw hx)

theorem step_pcAligned (h : step s = .next s') : pcAligned s' = true := by
  obtain ⟨i, hissue, hx⟩ := step_next h
  obtain ⟨-, ha, -⟩ := issue_next hissue
  exact exec_pcAligned ha hx

end Sys2Proof.Machine

end

/-! ## The obligations of the memory -/

section

namespace Sys2Proof.Machine

/-- Settles O32: the fetch gives the bytes of the encoding and the decoder reads them back. -/
theorem stepRunsEncodedInstruction : Obligations.StepRunsEncodedInstruction :=
  fun _ _ hf had hw hs h => step_of_issue_next (issue_encode hf had hw hs h)

/-- Settles O35: the two equivalences for `pcAligned`, and the second test of `issue`. -/
theorem alignmentOfPc : Obligations.AlignmentOfPc := fun _ =>
  ⟨pcAligned_a32_iff, pcAligned_t32_iff, fun hf ha =>
    step_of_issue_refused (issue_of_misalignedPc hf ha)⟩

/-- Settles O37: the fetch of each instruction set read byte by byte, and the two byte orders. -/
theorem fetchAndByteOrder : Obligations.FetchAndByteOrder := by
  refine ⟨?a32, ?t32, ?missing, ?stuck, ?order, rfl, rfl, rfl⟩
  case a32 =>
    intro s b0 b1 b2 b3 ht h0 h1 h2 h3
    exact (fetch_a32 ht).trans (readBytes_four h0 h1 h2 h3)
  case t32 =>
    intro s b0 b1 ht h0 h1
    have hfirst := readBytes_two h0 h1
    refine ⟨fetch_t32_narrow ht hfirst, ?_, fetch_t32_wide_eq_none ht hfirst⟩
    intro b2 b3 hw h2 h3
    rw [fetch_t32_wide ht hfirst hw, readBytes_next_two h2 h3]
    rfl
  case missing => exact fun _ _ hk h => fetch_eq_none hk h
  case stuck => exact fun _ hf had h => step_of_issue_fault (issue_of_fetch_none hf had h)
  case order => exact fun b0 b1 b2 b3 => ⟨leHalf_toNat b0 b1, leWord_toNat b0 b1 b2 b3⟩

/-- Settles O42: the two fetches agree, and nothing after the fetch reads `ProgramText`. -/
theorem stepSeesOnlyFetchedBytes : Obligations.StepSeesOnlyFetchedBytes :=
  fun _ _ _ h hm => step_withProgramText (hm.trans h.symm)

/-- Settles O48: a step went through the tests of `issue` and a placed meaning. -/
theorem stateAfterAStep : Obligations.StateAfterAStep :=
  fun _ _ h => ⟨step_itstate h, step_pcAligned h⟩

end Sys2Proof.Machine

end

/-! ## Fields under masks -/

section

namespace Sys2Proof

variable {n : Nat} {x : BitVec n}

/-- A match under the mask of one field is a test of that field. -/
theorem and_fieldMask_eq_iff {lo len : Nat} {field : BitVec len} {mask value : BitVec n}
    (h : lo + len ≤ n) (hm : mask = (BitVec.allOnes len).setWidth n <<< lo)
    (hv : value = field.setWidth n <<< lo) :
    x &&& mask = value ↔ x.extractLsb' lo len = field := by
  subst hm hv
  constructor
  · intro hx
    ext i hi
    have hbit := congrArg (fun y => BitVec.getLsbD y (lo + i)) hx
    simpa [hi, show lo + i < n by omega, show i < n by omega] using hbit
  · rintro rfl
    ext i hi
    by_cases hlo : i < lo
    · simp [hlo]
    · by_cases hlen : i - lo < len
      · simp [hlo, hlen, hi, show lo + (i - lo) = i by omega]
      · simp [hlo, hlen]

/-- A match under a mask is a match under each of two masks that make it up. -/
theorem and_mask_eq_iff_of_or {m m₁ m₂ v v₁ v₂ : BitVec n} (hm : m = m₁ ||| m₂) (hv : v = v₁ ||| v₂)
    (h₁ : v &&& m₁ = v₁) (h₂ : v &&& m₂ = v₂) :
    x &&& m = v ↔ x &&& m₁ = v₁ ∧ x &&& m₂ = v₂ := by
  constructor
  · intro hx
    subst hm
    constructor
    · rw [← h₁, ← hx]
      grind
    · rw [← h₂, ← hx]
      grind
  · rintro ⟨hx₁, hx₂⟩
    rw [hm, hv, BitVec.and_or_distrib_left, hx₁, hx₂]

theorem matchesA1_iff (instr : Word) :
    instr &&& 0x0F000000#32 = 0x0A000000#32 ↔
      instr.extractLsb' 25 3 = 0b101#3 ∧ instr.extractLsb' 24 1 = 0b0#1 := by
  rw [← and_fieldMask_eq_iff (mask := 0x0E000000#32) (by omega) rfl rfl,
    ← and_fieldMask_eq_iff (mask := 0x01000000#32) (by omega) rfl rfl]
  exact and_mask_eq_iff_of_or rfl rfl rfl rfl

theorem matchesT1_iff (hw1 : Half) :
    hw1 &&& 0xF000#16 = 0xD000#16 ↔ hw1.extractLsb' 12 4 = 0b1101#4 :=
  and_fieldMask_eq_iff (by omega) rfl rfl

theorem matchesT2_iff (hw1 : Half) :
    hw1 &&& 0xF800#16 = 0xE000#16 ↔ hw1.extractLsb' 11 5 = 0b11100#5 :=
  and_fieldMask_eq_iff (by omega) rfl rfl

/-- T3 and T4 have the same fixed bits but for bit 12 of the second halfword. -/
theorem matchesWide_iff (hw1 hw2 : Half) :
    (hw1 ++ hw2 : Word) &&& 0xF800C000#32 = 0xF0008000#32 ↔
      hw1.extractLsb' 11 5 = 0b11110#5 ∧ hw2.extractLsb' 14 2 = 0b10#2 := by
  have h1 : (hw1 ++ hw2 : Word).extractLsb' 27 5 = hw1.extractLsb' 11 5 :=
    BitVec.extractLsb'_append_eq_of_le (by omega)
  have h2 : (hw1 ++ hw2 : Word).extractLsb' 14 2 = hw2.extractLsb' 14 2 :=
    BitVec.extractLsb'_append_eq_of_add_le (by omega)
  rw [← h1, ← h2, ← and_fieldMask_eq_iff (mask := 0xF8000000#32) (by omega) rfl rfl,
    ← and_fieldMask_eq_iff (mask := 0xC000#32) (by omega) rfl rfl]
  exact and_mask_eq_iff_of_or rfl rfl rfl rfl

theorem matchesWide_bit12_iff (hw1 hw2 : Half) (b : Bit) :
    (hw1 ++ hw2 : Word) &&& 0xF800D000#32 = 0xF0008000#32 ||| b.setWidth 32 <<< 12 ↔
      (hw1.extractLsb' 11 5 = 0b11110#5 ∧ hw2.extractLsb' 14 2 = 0b10#2) ∧
        hw2.extractLsb' 12 1 = b := by
  have h1 : (hw1 ++ hw2 : Word).extractLsb' 12 1 = hw2.extractLsb' 12 1 :=
    BitVec.extractLsb'_append_eq_of_add_le (by omega)
  rw [← matchesWide_iff, ← h1, ← and_fieldMask_eq_iff (mask := 0x1000#32) (by omega) rfl rfl]
  exact and_mask_eq_iff_of_or rfl rfl (by revert b; decide) (by revert b; decide)

theorem matchesT3_iff (hw1 hw2 : Half) :
    (hw1 ++ hw2 : Word) &&& 0xF800D000#32 = 0xF0008000#32 ↔
      (hw1.extractLsb' 11 5 = 0b11110#5 ∧ hw2.extractLsb' 14 2 = 0b10#2) ∧
        hw2.extractLsb' 12 1 = 0b0#1 :=
  matchesWide_bit12_iff hw1 hw2 0b0#1

theorem matchesT4_iff (hw1 hw2 : Half) :
    (hw1 ++ hw2 : Word) &&& 0xF800D000#32 = 0xF0009000#32 ↔
      (hw1.extractLsb' 11 5 = 0b11110#5 ∧ hw2.extractLsb' 14 2 = 0b10#2) ∧
        hw2.extractLsb' 12 1 = 0b1#1 :=
  matchesWide_bit12_iff hw1 hw2 0b1#1

end Sys2Proof

end

/-! ## What the decoder answers, pattern by pattern -/

section

namespace Sys2Proof

/-- A part of a field is a field. -/
theorem extractLsb'_extractLsb'_of_add_le {n lo len lo' len' : Nat} {x : BitVec n}
    (h : lo' + len' ≤ len) :
    (x.extractLsb' lo len).extractLsb' lo' len' = x.extractLsb' (lo + lo') len' := by
  ext i hi
  simp [Nat.add_assoc, show lo' + i < len by omega]

/-- A field value that starts 111 names `AL` or no condition (R102). -/
theorem Cond.ofBits_of_top_eq {b : BitVec 4} (h : b.extractLsb' 1 3 = 0b111#3) :
    Cond.ofBits b = some .al ∨ Cond.ofBits b = none := by
  revert b
  decide

/-- Any field value but 1111 names a condition (R102). -/
theorem Cond.ofBits_of_ne {b : BitVec 4} (h : b ≠ 0b1111#4) : ∃ c, Cond.ofBits b = some c :=
  Option.ne_none_iff_exists'.mp fun hnone => h (Cond.eq_of_ofBits_eq_none hnone)

/-- A field value that does not start 111 names a condition other than `AL` (R102). -/
theorem Cond.ofBits_of_top_ne {b : BitVec 4} (h : b.extractLsb' 1 3 ≠ 0b111#3) :
    ∃ c, Cond.ofBits b = some c ∧ c ≠ .al := by
  obtain ⟨c, hc⟩ := Cond.ofBits_of_ne (b := b) (by rintro rfl; exact h rfl)
  refine ⟨c, hc, ?_⟩
  rintro rfl
  exact h (by rw [← Cond.bits_of_ofBits hc]; rfl)

section A32

variable {w : Word}

theorem decodeA32_of_pattern_of_cond {c : Cond}
    (hp : w.extractLsb' 25 3 = 0b101#3 ∧ w.extractLsb' 24 1 = 0b0#1)
    (hc : Cond.ofBits (w.extractLsb' 28 4) = some c) :
    decodeA32 w = .isB (.bA1 c (w.extractLsb' 0 24)) := by
  simp [decodeA32, hp, hc]

theorem decodeA32_of_pattern_of_1111
    (hp : w.extractLsb' 25 3 = 0b101#3 ∧ w.extractLsb' 24 1 = 0b0#1)
    (hc : w.extractLsb' 28 4 = 0b1111#4) : decodeA32 w = .notB .a32Cond1111 := by
  have hnone : Cond.ofBits (w.extractLsb' 28 4) = none := by rw [hc]; decide
  simp [decodeA32, hp, hnone]

theorem decodeA32_of_no_pattern
    (hp : ¬(w.extractLsb' 25 3 = 0b101#3 ∧ w.extractLsb' 24 1 = 0b0#1)) :
    decodeA32 w = .notB .notBPattern :=
  if_neg hp

end A32

section T16

variable {hw1 : Half}

theorem decodeT16_of_T1_of_al (hp : hw1.extractLsb' 12 4 = 0b1101#4)
    (hc : hw1.extractLsb' 8 4 = 0b1110#4) : decodeT16 hw1 = .notB .udf := by
  have hal : Cond.ofBits (hw1.extractLsb' 8 4) = some .al := by rw [hc]; decide
  simp [decodeT16, hp, hal]

theorem decodeT16_of_T1_of_1111 (hp : hw1.extractLsb' 12 4 = 0b1101#4)
    (hc : hw1.extractLsb' 8 4 = 0b1111#4) : decodeT16 hw1 = .notB .svc := by
  have hnone : Cond.ofBits (hw1.extractLsb' 8 4) = none := by rw [hc]; decide
  simp [decodeT16, hp, hnone]

theorem decodeT16_of_T1_of_cond {c : Cond} (hp : hw1.extractLsb' 12 4 = 0b1101#4)
    (hc : Cond.ofBits (hw1.extractLsb' 8 4) = some c) (hal : c ≠ .al) :
    decodeT16 hw1 = .isB (.bT1 c (hw1.extractLsb' 0 8)) := by
  simp [decodeT16, hp, hc]

/-- The patterns of T1 and T2 exclude each other. -/
theorem not_T1_of_T2 (hp : hw1.extractLsb' 11 5 = 0b11100#5) : hw1.extractLsb' 12 4 ≠ 0b1101#4 := by
  have htop : (hw1.extractLsb' 11 5).extractLsb' 1 4 = hw1.extractLsb' 12 4 :=
    extractLsb'_extractLsb'_of_add_le (by omega)
  rw [← htop, hp]
  decide

theorem decodeT16_of_T2 (hp : hw1.extractLsb' 11 5 = 0b11100#5) :
    decodeT16 hw1 = .isB (.bT2 (hw1.extractLsb' 0 11)) := by
  simp [decodeT16, not_T1_of_T2 hp, hp]

theorem decodeT16_of_no_pattern (h1 : hw1.extractLsb' 12 4 ≠ 0b1101#4)
    (h2 : hw1.extractLsb' 11 5 ≠ 0b11100#5) : decodeT16 hw1 = .notB .notBPattern := by
  simp [decodeT16, h1, h2]

end T16

section T32

variable {hw1 hw2 : Half}

theorem decodeT32_of_T3_of_top_eq
    (hp : (hw1.extractLsb' 11 5 = 0b11110#5 ∧ hw2.extractLsb' 14 2 = 0b10#2) ∧
      hw2.extractLsb' 12 1 = 0b0#1)
    (hc : hw1.extractLsb' 7 3 = 0b111#3) : decodeT32 hw1 hw2 = .notB .relatedEncodings := by
  rcases Cond.ofBits_of_top_eq ((extractLsb'_extractLsb'_of_add_le (by omega)).trans hc) with h | h
  · simp [decodeT32, hp, h]
  · simp [decodeT32, hp, h]

theorem decodeT32_of_T3_of_cond {c : Cond}
    (hp : (hw1.extractLsb' 11 5 = 0b11110#5 ∧ hw2.extractLsb' 14 2 = 0b10#2) ∧
      hw2.extractLsb' 12 1 = 0b0#1)
    (hc : Cond.ofBits (hw1.extractLsb' 6 4) = some c) (hal : c ≠ .al) :
    decodeT32 hw1 hw2 =
      .isB (.bT3 (hw1.extractLsb' 10 1) c (hw1.extractLsb' 0 6) (hw2.extractLsb' 13 1)
        (hw2.extractLsb' 11 1) (hw2.extractLsb' 0 11)) := by
  simp [decodeT32, hp, hc]

theorem decodeT32_of_T4
    (hp : (hw1.extractLsb' 11 5 = 0b11110#5 ∧ hw2.extractLsb' 14 2 = 0b10#2) ∧
      hw2.extractLsb' 12 1 = 0b1#1) :
    decodeT32 hw1 hw2 =
      .isB (.bT4 (hw1.extractLsb' 10 1) (hw1.extractLsb' 0 10) (hw2.extractLsb' 13 1)
        (hw2.extractLsb' 11 1) (hw2.extractLsb' 0 11)) := by
  simp [decodeT32, hp]

theorem decodeT32_of_no_pattern
    (hp : ¬(hw1.extractLsb' 11 5 = 0b11110#5 ∧ hw2.extractLsb' 14 2 = 0b10#2)) :
    decodeT32 hw1 hw2 = .notB .notBPattern :=
  if_neg hp

end T32

/-! ## The length of an instruction -/

theorem isWideT32_iff (hw1 : Half) : isWideT32 hw1 = true ↔
    hw1.toNat / 2048 = 0b11101 ∨ hw1.toNat / 2048 = 0b11110 ∨ hw1.toNat / 2048 = 0b11111 := by
  have htop : (hw1.extractLsb' 11 5).toNat = hw1.toNat / 2048 := by
    rw [BitVec.extractLsb'_toNat, Nat.shiftRight_eq_div_pow]
    omega
  simp [isWideT32, ← BitVec.toNat_inj, htop, or_assoc]

theorem length_encode (i : Instr) : (encode i).length = i.ilen := by
  cases i <;> rfl

/-- The first halfword of a T32 encoding tells its length (R71). -/
theorem isWideT32_of_encode {i : Instr} {b0 b1 : Byte} {more : List Byte} (hs : i.set = .t32)
    (h : encode i = b0 :: b1 :: more) : isWideT32 (leHalf b0 b1) = true ↔ i.ilen = 4 := by
  cases i with
  | bA1 => cases hs
  | bT1 => cases h; simp [leHalf_halves, isWideT32_encodeT1, Instr.ilen]
  | bT2 => cases h; simp [leHalf_halves, isWideT32_encodeT2, Instr.ilen]
  | bT3 => cases h; simp [leHalf_halves, isWideT32_encodeT3hw1, Instr.ilen]
  | bT4 => cases h; simp [leHalf_halves, isWideT32_encodeT4hw1, Instr.ilen]

theorem decode_t32_narrow {b0 b1 : Byte} {rest : List Byte} (h : isWideT32 (leHalf b0 b1) = false) :
    decode .t32 (b0 :: b1 :: rest) = (decodeT16 (leHalf b0 b1)).followedBy rest := by
  simp [decode, h]

theorem decode_t32_wide {b0 b1 b2 b3 : Byte} {rest : List Byte}
    (h : isWideT32 (leHalf b0 b1) = true) :
    decode .t32 (b0 :: b1 :: b2 :: b3 :: rest) =
      (decodeT32 (leHalf b0 b1) (leHalf b2 b3)).followedBy rest := by
  simp [decode, h]

end Sys2Proof

end

/-! ## A step at a word that is not `B` -/

section

namespace Sys2Proof.Machine

theorem issue_of_notB {s : State} {bytes : List Byte} {reason : NotB} (hf : ¬s.Final)
    (had : s.Admissible) (h : fetch s = some bytes) (hd : decode s.t bytes = .notB reason) :
    issue s = .refused (.notB reason) := by
  simp [issue, hf, had, h, hd]

end Sys2Proof.Machine

end

/-! ## Offsets: a field above zeros, sign extended -/

section

namespace Sys2Proof.Machine

section Scaled

variable {w k n : Nat} {x : BitVec w}

theorem getLsbD_scaled_of_lt {i : Nat} (hi : i < k) :
    ((x ++ 0#k).signExtend n).getLsbD i = false := by
  rw [BitVec.getLsbD_signExtend, BitVec.getLsbD_append]
  simp [hi, show i < w + k by omega]

theorem getLsbD_scaled_of_le {i : Nat} (hw : 0 < w) (hi : w + k ≤ i) (hn : i < n) :
    ((x ++ 0#k).signExtend n).getLsbD i = x.getLsbD (w - 1) := by
  rw [BitVec.getLsbD_signExtend, ← BitVec.msb_eq_getLsbD_last]
  simp [BitVec.msb_append, hn, hw.ne', show ¬i < w + k by omega]

theorem extractLsb'_scaled_of_le {lo len : Nat} (hk : k ≤ lo) (hw : lo + len ≤ w + k)
    (hn : w + k ≤ n) :
    ((x ++ 0#k).signExtend n).extractLsb' lo len = x.extractLsb' (lo - k) len := by
  ext i hi
  rw [BitVec.getElem_extractLsb', BitVec.getElem_extractLsb', BitVec.getLsbD_signExtend,
    BitVec.getLsbD_append]
  simp [show lo + i < n by omega, show lo + i < w + k by omega, show ¬lo + i < k by omega,
    show lo + i - k = lo - k + i by omega]

theorem toInt_scaled (h : w + k ≤ n) : ((x ++ 0#k).signExtend n).toInt = 2 ^ k * x.toInt := by
  rw [BitVec.toInt_signExtend_of_le h, BitVec.toInt_append_zero]

end Scaled

/-- The permitted offsets of an encoding (R81), by its bounds and its step. -/
theorem permits_iff {e : Encoding} {o : Word} : permits e o = true ↔
    lowestOffset e ≤ o.toInt ∧ o.toInt ≤ highestOffset e ∧ o.toInt % offsetStep e = 0 := by
  simp [permits, and_assoc]

/-- Where the bounds and the step are those of a field of `w` bits above `k` zeros, the permitted
offsets are the values of that field. -/
theorem permits_iff_exists_field {e : Encoding} {o : Word} {w k : Nat} (hw : 0 < w)
    (hwk : w + k ≤ 32) (hlow : lowestOffset e = 2 ^ k * -2 ^ (w - 1))
    (hhigh : highestOffset e = 2 ^ k * (2 ^ (w - 1) - 1)) (hstep : offsetStep e = 2 ^ k) :
    permits e o = true ↔ ∃ x : BitVec w, o = (x ++ 0#k).signExtend 32 := by
  have hpos : (0 : Int) < 2 ^ k := by positivity
  rw [permits_iff, hlow, hhigh, hstep]
  constructor
  · rintro ⟨hl, hh, hs⟩
    obtain ⟨q, hq⟩ := Int.dvd_of_emod_eq_zero hs
    rw [hq] at hl hh
    have hql := Int.le_of_mul_le_mul_left hl hpos
    have hqh := Int.le_of_mul_le_mul_left hh hpos
    refine ⟨BitVec.ofInt w q, BitVec.eq_of_toInt_eq ?_⟩
    rw [toInt_scaled hwk, hq, BitVec.toInt_ofInt_eq_self hw hql (Int.lt_of_le_sub_one hqh)]
  · rintro ⟨x, rfl⟩
    rw [toInt_scaled hwk]
    refine ⟨?_, ?_, Int.mul_emod_right _ _⟩
    · exact Int.mul_le_mul_of_nonneg_left x.le_toInt hpos.le
    · exact Int.mul_le_mul_of_nonneg_left (Int.le_sub_one_of_lt x.toInt_lt) hpos.le

/-! ### The fields of each offset -/

@[simp] theorem imm32A1_imm24 (imm24 : BitVec 24) : (imm32A1 imm24).extractLsb' 2 24 = imm24 := by
  rw [imm32A1, extractLsb'_scaled_of_le (by omega) (by omega) (by omega)]
  simp

@[simp] theorem imm32T1_imm8 (imm8 : BitVec 8) : (imm32T1 imm8).extractLsb' 1 8 = imm8 := by
  rw [imm32T1, extractLsb'_scaled_of_le (by omega) (by omega) (by omega)]
  simp

@[simp] theorem imm32T2_imm11 (imm11 : BitVec 11) : (imm32T2 imm11).extractLsb' 1 11 = imm11 := by
  rw [imm32T2, extractLsb'_scaled_of_le (by omega) (by omega) (by omega)]
  simp

section T3

variable {S : Bit} {imm6 : BitVec 6} {J1 J2 : Bit} {imm11 : BitVec 11}

/-- Bits 20 to 1 of a T3 offset (R69). -/
theorem imm32T3_extractLsb' {lo len : Nat} (hlo : 1 ≤ lo) (hlen : lo + len ≤ 21) :
    (imm32T3 S imm6 J1 J2 imm11).extractLsb' lo len =
      (S ++ J2 ++ J1 ++ imm6 ++ imm11).extractLsb' (lo - 1) len :=
  extractLsb'_scaled_of_le hlo hlen (by omega)

@[simp] theorem imm32T3_imm11 : (imm32T3 S imm6 J1 J2 imm11).extractLsb' 1 11 = imm11 := by
  rw [imm32T3_extractLsb' (by omega) (by omega)]
  simp [↓BitVec.extractLsb'_append_eq_of_add_le]

@[simp] theorem imm32T3_imm6 : (imm32T3 S imm6 J1 J2 imm11).extractLsb' 12 6 = imm6 := by
  rw [imm32T3_extractLsb' (by omega) (by omega)]
  simp [↓BitVec.extractLsb'_append_eq_of_le, ↓BitVec.extractLsb'_append_eq_of_add_le]

@[simp] theorem imm32T3_J1 : (imm32T3 S imm6 J1 J2 imm11).extractLsb' 18 1 = J1 := by
  rw [imm32T3_extractLsb' (by omega) (by omega)]
  simp [↓BitVec.extractLsb'_append_eq_of_le, ↓BitVec.extractLsb'_append_eq_of_add_le]

@[simp] theorem imm32T3_J2 : (imm32T3 S imm6 J1 J2 imm11).extractLsb' 19 1 = J2 := by
  rw [imm32T3_extractLsb' (by omega) (by omega)]
  simp [↓BitVec.extractLsb'_append_eq_of_le, ↓BitVec.extractLsb'_append_eq_of_add_le]

@[simp] theorem imm32T3_S : (imm32T3 S imm6 J1 J2 imm11).extractLsb' 20 1 = S := by
  rw [imm32T3_extractLsb' (by omega) (by omega)]
  simp [↓BitVec.extractLsb'_append_eq_of_le]

theorem imm32T3_getLsbD_of_le {i : Nat} (h : 21 ≤ i) (hi : i < 32) :
    (imm32T3 S imm6 J1 J2 imm11).getLsbD i = S.getLsbD 0 := by
  rw [imm32T3, getLsbD_scaled_of_le (by omega) h hi, ← BitVec.msb_eq_getLsbD_last]
  simp [↓BitVec.msb_append, BitVec.msb_eq_getLsbD_last S]

/-- The permitted offsets of T3 are the ones its decode block assembles (R69, R81). -/
theorem permits_t3_iff {o : Word} : permits .t3 o = true ↔
    ∃ S imm6 J1 J2 imm11, o = imm32T3 S imm6 J1 J2 imm11 := by
  rw [permits_iff_exists_field (w := 20) (k := 1) (by omega) (by omega) rfl rfl rfl]
  constructor
  · rintro ⟨x, rfl⟩
    refine ⟨x.extractLsb' 19 1, x.extractLsb' 11 6, x.extractLsb' 17 1, x.extractLsb' 18 1,
      x.extractLsb' 0 11, ?_⟩
    simp only [imm32T3, BitVec.extractLsb'_append_extractLsb'_eq_extractLsb',
      BitVec.extractLsb'_eq_self]
  · rintro ⟨S, imm6, J1, J2, imm11, rfl⟩
    exact ⟨_, rfl⟩

end T3

section T4

variable {S : Bit} {imm10 : BitVec 10} {J1 J2 : Bit} {imm11 : BitVec 11}

theorem t4I_eq_one_iff {J S : Bit} : t4I J S = 1#1 ↔ J = S := by
  revert J S
  decide

/-- `J` is got back from `I` (R72). -/
@[simp] theorem not_t4I_xor {J S : Bit} : ~~~t4I J S ^^^ S = J := by
  revert J S
  decide

@[simp] theorem t4I_not_xor {I S : Bit} : t4I (~~~I ^^^ S) S = I := by
  revert I S
  decide

/-- Bits 24 to 1 of a T4 offset (R70). -/
theorem imm32T4_extractLsb' {lo len : Nat} (hlo : 1 ≤ lo) (hlen : lo + len ≤ 25) :
    (imm32T4 S imm10 J1 J2 imm11).extractLsb' lo len =
      (S ++ t4I J1 S ++ t4I J2 S ++ imm10 ++ imm11).extractLsb' (lo - 1) len :=
  extractLsb'_scaled_of_le hlo hlen (by omega)

@[simp] theorem imm32T4_imm11 : (imm32T4 S imm10 J1 J2 imm11).extractLsb' 1 11 = imm11 := by
  rw [imm32T4_extractLsb' (by omega) (by omega)]
  simp [↓BitVec.extractLsb'_append_eq_of_add_le]

@[simp] theorem imm32T4_imm10 : (imm32T4 S imm10 J1 J2 imm11).extractLsb' 12 10 = imm10 := by
  rw [imm32T4_extractLsb' (by omega) (by omega)]
  simp [↓BitVec.extractLsb'_append_eq_of_le, ↓BitVec.extractLsb'_append_eq_of_add_le]

@[simp] theorem imm32T4_I2 : (imm32T4 S imm10 J1 J2 imm11).extractLsb' 22 1 = t4I J2 S := by
  rw [imm32T4_extractLsb' (by omega) (by omega)]
  simp [↓BitVec.extractLsb'_append_eq_of_le, ↓BitVec.extractLsb'_append_eq_of_add_le]

@[simp] theorem imm32T4_I1 : (imm32T4 S imm10 J1 J2 imm11).extractLsb' 23 1 = t4I J1 S := by
  rw [imm32T4_extractLsb' (by omega) (by omega)]
  simp [↓BitVec.extractLsb'_append_eq_of_le, ↓BitVec.extractLsb'_append_eq_of_add_le]

@[simp] theorem imm32T4_S : (imm32T4 S imm10 J1 J2 imm11).extractLsb' 24 1 = S := by
  rw [imm32T4_extractLsb' (by omega) (by omega)]
  simp [↓BitVec.extractLsb'_append_eq_of_le]

theorem imm32T4_getLsbD_of_le {i : Nat} (h : 25 ≤ i) (hi : i < 32) :
    (imm32T4 S imm10 J1 J2 imm11).getLsbD i = S.getLsbD 0 := by
  rw [imm32T4, getLsbD_scaled_of_le (by omega) h hi, ← BitVec.msb_eq_getLsbD_last]
  simp [↓BitVec.msb_append, BitVec.msb_eq_getLsbD_last S]

/-- The permitted offsets of T4 are the ones its decode block assembles (R70, R81). -/
theorem permits_t4_iff {o : Word} : permits .t4 o = true ↔
    ∃ S imm10 J1 J2 imm11, o = imm32T4 S imm10 J1 J2 imm11 := by
  rw [permits_iff_exists_field (w := 24) (k := 1) (by omega) (by omega) rfl rfl rfl]
  constructor
  · rintro ⟨x, rfl⟩
    refine ⟨x.extractLsb' 23 1, x.extractLsb' 11 10, ~~~x.extractLsb' 22 1 ^^^ x.extractLsb' 23 1,
      ~~~x.extractLsb' 21 1 ^^^ x.extractLsb' 23 1, x.extractLsb' 0 11, ?_⟩
    simp only [imm32T4, t4I_not_xor, BitVec.extractLsb'_append_extractLsb'_eq_extractLsb',
      BitVec.extractLsb'_eq_self]
  · rintro ⟨S, imm10, J1, J2, imm11, rfl⟩
    exact ⟨_, rfl⟩

/-- An offset whose bits 23 and 22 copy its sign has `J1` = `J2` = 1 (R70). -/
theorem imm32T4_small_offset (h : (imm32T4 S imm10 J1 J2 imm11).extractLsb' 22 2 = S ++ S) :
    J1 = 1#1 ∧ J2 = 1#1 := by
  have hbits := BitVec.extractLsb'_append_extractLsb'_eq_extractLsb' (start₁ := 22) (len₁ := 1)
    (start₂ := 23) (len₂ := 1) (x := imm32T4 S imm10 J1 J2 imm11) rfl
  rw [imm32T4_I1, imm32T4_I2] at hbits
  have hfields : t4I J1 S ++ t4I J2 S = S ++ S := hbits.trans h
  clear h hbits
  revert S J1 J2
  decide

end T4

theorem permits_a1_iff {o : Word} : permits .a1 o = true ↔ ∃ imm24, o = imm32A1 imm24 :=
  permits_iff_exists_field (by omega) (by omega) rfl rfl rfl

theorem permits_t1_iff {o : Word} : permits .t1 o = true ↔ ∃ imm8, o = imm32T1 imm8 :=
  permits_iff_exists_field (by omega) (by omega) rfl rfl rfl

theorem permits_t2_iff {o : Word} : permits .t2 o = true ↔ ∃ imm11, o = imm32T2 imm11 :=
  permits_iff_exists_field (by omega) (by omega) rfl rfl rfl

/-- A permitted offset taken apart into fields is put back together by the decode block (R72). -/
theorem imm32_assembleFields {e : Encoding} {cond : Cond} {o : Word} (h : permits e o = true) :
    imm32 (assembleFields e cond o) = o := by
  cases e with
  | a1 =>
    obtain ⟨imm24, rfl⟩ := permits_a1_iff.mp h
    simp [assembleFields, imm32]
  | t1 =>
    obtain ⟨imm8, rfl⟩ := permits_t1_iff.mp h
    simp [assembleFields, imm32]
  | t2 =>
    obtain ⟨imm11, rfl⟩ := permits_t2_iff.mp h
    simp [assembleFields, imm32]
  | t3 =>
    obtain ⟨S, imm6, J1, J2, imm11, rfl⟩ := permits_t3_iff.mp h
    simp [assembleFields, imm32]
  | t4 =>
    obtain ⟨S, imm10, J1, J2, imm11, rfl⟩ := permits_t4_iff.mp h
    simp [assembleFields, imm32]

end Sys2Proof.Machine

end

/-! ## What the assembler selects and writes -/

section

namespace Sys2Proof.Machine

variable {s : State} {cond : Cond} {q : Qualifier} {o : Word} {e : Encoding}

section NarrowOrWide

variable {short long : Encoding}

theorem narrowOrWide_short (hq : q ≠ .wide) (h : permits short o = true) :
    narrowOrWide short long q o = some short :=
  if_pos ⟨hq, h⟩

theorem narrowOrWide_long (hq : q ≠ .narrow) (hs : permits short o = false)
    (h : permits long o = true) : narrowOrWide short long q o = some long := by
  simp [narrowOrWide, hq, hs, h]

theorem narrowOrWide_wide (h : permits long o = true) :
    narrowOrWide short long .wide o = some long := by
  simp [narrowOrWide, h]

/-- Whatever is chosen holds the offset. -/
theorem narrowOrWide_some (h : narrowOrWide short long q o = some e) :
    permits e o = true ∧ (e = short ∨ e = long) := by
  unfold narrowOrWide at h
  split at h
  · rename_i hshort
    cases h
    exact ⟨hshort.2, .inl rfl⟩
  · split at h
    · rename_i hlong
      cases h
      exact ⟨hlong.2, .inr rfl⟩
    · cases h

end NarrowOrWide

theorem inITBlock_eq_false_iff : inITBlock s = false ↔ s.itstate.extractLsb' 0 4 = 0b0000#4 := by
  simp [inITBlock]

theorem lastInITBlock_iff : lastInITBlock s = true ↔ s.itstate.extractLsb' 0 4 = 0b1000#4 := by
  simp [lastInITBlock]

theorem inITBlock_of_last (h : lastInITBlock s = true) : inITBlock s = true := by
  rw [lastInITBlock_iff] at h
  simp [inITBlock, h]

theorem selectEncoding_a32 (ht : s.t = .a32) (hq : q ≠ .narrow) (h : permits .a1 o = true) :
    selectEncoding s cond q o = some .a1 := by
  simp [selectEncoding, ht, hq, h]

/-- Outside an IT block a condition other than `AL` is written in the encoding (R82). -/
theorem selectEncoding_conditional (ht : s.t = .t32) (hin : inITBlock s = false)
    (hc : cond ≠ .al) : selectEncoding s cond q o = narrowOrWide .t1 .t3 q o := by
  simp [selectEncoding, ht, hin, hc]

/-- Where T2 and T4 may stand and the IT-state gives the condition that is written (R79, R82). -/
theorem selectEncoding_itCondition (ht : s.t = .t32)
    (hp : inITBlock s = false ∨ lastInITBlock s = true) (hc : itCondition s = some cond) :
    selectEncoding s cond q o = narrowOrWide .t2 .t4 q o := by
  obtain hin | hlast := hp
  · have hal : cond = .al := by simpa [itCondition, hin] using hc.symm
    simp [selectEncoding, ht, hin, hal]
  · simp [selectEncoding, ht, inITBlock_of_last hlast, hlast, hc]

/-- What a selected encoding tells of the place and the condition it was selected for. -/
theorem selectEncoding_some (h : selectEncoding s cond q o = some e) :
    permits e o = true ∧
      ((s.t = .a32 ∧ e = .a1) ∨
      (s.t = .t32 ∧ inITBlock s = false ∧ cond ≠ .al ∧ (e = .t1 ∨ e = .t3)) ∨
      (s.t = .t32 ∧ (inITBlock s = false ∨ lastInITBlock s = true) ∧ itCondition s = some cond ∧
        (e = .t2 ∨ e = .t4))) := by
  unfold selectEncoding at h
  split at h
  · rename_i ht
    split at h
    · rename_i ha1
      cases h
      exact ⟨ha1.2, .inl ⟨ht, rfl⟩⟩
    · cases h
  · rename_i ht
    split at h
    · split at h
      · rename_i hlast
        obtain ⟨hpermits, he⟩ := narrowOrWide_some h
        exact ⟨hpermits, .inr (.inr ⟨ht, .inr hlast.1, hlast.2, he⟩)⟩
      · cases h
    · rename_i hin
      rw [Bool.not_eq_true] at hin
      split at h
      · rename_i hal
        obtain ⟨hpermits, he⟩ := narrowOrWide_some h
        refine ⟨hpermits, .inr (.inr ⟨ht, .inl hin, ?_, he⟩)⟩
        rw [hal]
        exact itCondition_outside (inITBlock_eq_false_iff.mp hin)
      · rename_i hal
        obtain ⟨hpermits, he⟩ := narrowOrWide_some h
        exact ⟨hpermits, .inr (.inl ⟨ht, hin, hal, he⟩)⟩

/-- What the assembler wrote is the instruction of a selected encoding. -/
theorem assemble_some {c : Option Cond} {label : Word} {i : Instr}
    (h : assemble s c q label = some i) : ∃ e,
      selectEncoding s (c.getD .al) q (label - pcRead s) = some e ∧
        i = assembleFields e (c.getD .al) (label - pcRead s) := by
  unfold assemble at h
  split at h
  · rename_i e he
    cases h
    exact ⟨e, he, rfl⟩
  · cases h

/-- What a selected encoding assembles is well formed, belongs to the instruction set in force, may
stand where it is written, and is executed under the condition written (R79, R82). -/
theorem assembleFields_of_selectEncoding (h : selectEncoding s cond q o = some e) :
    (assembleFields e cond o).wellFormed = true ∧ s.t = (assembleFields e cond o).set ∧
      ItPlaced (assembleFields e cond o) s ∧
      currentCond (assembleFields e cond o) s = some cond := by
  obtain ⟨-, ⟨ht, rfl⟩ | ⟨ht, hin, hal, rfl | rfl⟩ | ⟨ht, hp, hc, rfl | rfl⟩⟩ :=
    selectEncoding_some h
  · exact ⟨rfl, ht, trivial, rfl⟩
  · exact ⟨by simpa [assembleFields, Instr.wellFormed] using hal, ht, hin, rfl⟩
  · exact ⟨by simpa [assembleFields, Instr.wellFormed] using hal, ht, hin, rfl⟩
  · exact ⟨rfl, ht, hp, hc⟩
  · exact ⟨rfl, ht, hp, hc⟩

/-- The target of what the assembler wrote is the label (R72, R81). -/
theorem pcRead_add_imm32_of_assemble {c : Option Cond} {label : Word} {i : Instr}
    (h : assemble s c q label = some i) : pcRead s + imm32 i = label := by
  obtain ⟨e, he, rfl⟩ := assemble_some h
  obtain ⟨hpermits, -⟩ := selectEncoding_some he
  rw [imm32_assembleFields hpermits, BitVec.add_comm, BitVec.sub_add_cancel]

theorem assemble_placed {c : Option Cond} {label : Word} {i : Instr}
    (h : assemble s c q label = some i) :
    i.wellFormed = true ∧ s.t = i.set ∧ ItPlaced i s ∧ currentCond i s = some (c.getD .al) := by
  obtain ⟨e, he, rfl⟩ := assemble_some h
  exact assembleFields_of_selectEncoding he

theorem disassemble_target {b : Bool} {i : Instr} :
    (disassemble b s i).target = pcRead s + imm32 i := by
  cases i <;> rfl

theorem printedCond_of_ne_al (hc : cond ≠ .al) : printedCond cond = some cond := if_neg hc

end Sys2Proof.Machine

end

/-! ## A taken branch, and a meaning in the other instruction set -/

section

namespace Sys2Proof.Machine

variable {s : State}

theorem exec_of_other_set {i : Instr} (h : s.t ≠ i.set) : exec i s = .refused .wrongInstrSet := by
  cases i with
  | bA1 | bT1 | bT2 | bT3 | bT4 => exact if_pos h

theorem condBranchT32_of_al {see : NotB} {offset : Word} {ilen : Nat} (ht : s.t = .t32) :
    condBranchT32 see .al offset ilen s = .refused (.notB see) := by
  simp [condBranchT32, ht]

/-- Where the target is aligned `BranchWritePC` forces nothing (R103). -/
theorem branchWritePC_of_aligned {address : Word} {b : BranchType}
    (h : pcAligned { s with pc := address } = true) :
    branchWritePC address b s = { s with pc := address } := by
  cases ht : s.t with
  | a32 =>
    have hlow : address.extractLsb' 0 2 = 0b00#2 := by simpa [pcAligned, ht] using h
    have htarget : address.extractLsb' 2 30 ++ 0b00#2 = address := by
      rw [← hlow, BitVec.extractLsb'_append_extractLsb'_eq_extractLsb' (by omega)]
      exact BitVec.extractLsb'_eq_self
    simp [branchWritePC, ht, htarget]
  | t32 =>
    have hlow : address.extractLsb' 0 1 = 0b0#1 := by simpa [pcAligned, ht] using h
    have htarget : address.extractLsb' 1 31 ++ 0b0#1 = address := by
      rw [← hlow, BitVec.extractLsb'_append_extractLsb'_eq_extractLsb' (by omega)]
      exact BitVec.extractLsb'_eq_self
    simp [branchWritePC, ht, htarget]

/-- A permitted offset is a multiple of the step of its encoding as an unsigned number too. -/
theorem toNat_mod_of_permits {e : Encoding} {o : Word} (h : permits e o = true) :
    o.toNat % (offsetStep e).toNat = 0 := by
  obtain ⟨-, -, hstep⟩ := permits_iff.mp h
  rw [BitVec.toInt_eq_toNat_cond] at hstep
  cases e with
  | a1 | t1 | t2 | t3 | t4 =>
    simp only [offsetStep, Int.reduceToNat] at hstep ⊢
    omega

theorem imm32_toNat_a32 {i : Instr} (hs : i.set = .a32) : (imm32 i).toNat % 4 = 0 := by
  cases i with
  | bA1 => exact toNat_mod_of_permits (permits_a1_iff.mpr ⟨_, rfl⟩)
  | bT1 | bT2 | bT3 | bT4 => cases hs

theorem imm32_toNat_t32 {i : Instr} (hs : i.set = .t32) : (imm32 i).toNat % 2 = 0 := by
  cases i with
  | bA1 => cases hs
  | bT1 => exact toNat_mod_of_permits (permits_t1_iff.mpr ⟨_, rfl⟩)
  | bT2 => exact toNat_mod_of_permits (permits_t2_iff.mpr ⟨_, rfl⟩)
  | bT3 => exact toNat_mod_of_permits (permits_t3_iff.mpr ⟨_, _, _, _, _, rfl⟩)
  | bT4 => exact toNat_mod_of_permits (permits_t4_iff.mpr ⟨_, _, _, _, _, rfl⟩)

/-- The target of a `B` at an aligned `pc` is aligned for its instruction set. -/
theorem pcAligned_target {i : Instr} (hs : s.t = i.set) (ha : pcAligned s = true) :
    pcAligned { s with pc := pcRead s + imm32 i } = true := by
  cases ht : s.t with
  | a32 =>
    have hoffset := imm32_toNat_a32 (hs.symm.trans ht)
    rw [pcAligned_a32_iff ht] at ha
    rw [pcAligned_a32_iff rfl, BitVec.toNat_add, pcRead_toNat_a32 ht]
    omega
  | t32 =>
    have hoffset := imm32_toNat_t32 (hs.symm.trans ht)
    rw [pcAligned_t32_iff ht] at ha
    rw [pcAligned_t32_iff rfl, BitVec.toNat_add, pcRead_toNat_t32 ht]
    omega

/-- A `B` that is placed as the IT block allows and whose condition holds goes to its target and
leaves no IT block open (R100, R105). -/
theorem exec_taken {i : Instr} {cond : Cond} (had : s.Admissible) (hw : i.wellFormed = true)
    (hs : s.t = i.set) (hp : ItPlaced i s) (hc : currentCond i s = some cond)
    (holds : conditionHolds cond s = true) :
    exec i s = .next { s with pc := pcRead s + imm32 i, itstate := 0#8 } := by
  obtain ⟨ha, hl⟩ := had
  calc exec i s = executeBlock cond (imm32 i) i.ilen s := exec_eq_executeBlock hw hs hp hc
    _ = .next (itAdvance (branchWritePC (pcRead s + imm32 i) .dir s)) := if_pos holds
    _ = .next (itAdvance { s with pc := pcRead s + imm32 i }) := by
      rw [branchWritePC_of_aligned (pcAligned_target hs ha)]
    _ = .next { s with pc := pcRead s + imm32 i, itstate := (itAdvance s).itstate } := rfl
    _ = .next { s with pc := pcRead s + imm32 i, itstate := 0#8 } := by
      rw [itAdvance_itstate_of_placed hs hl hp]

end Sys2Proof.Machine

end

/-! ## The obligations of the encoding -/

section

namespace Sys2Proof.Machine

/-- Settles O2: the round trip of each encoding. -/
theorem decodeOfEncode : Obligations.DecodeOfEncode := fun _ rest hw => decode_encode hw rest

/-- Settles O3: what `decode` read when it read an instruction. -/
theorem encodeOfDecode : Obligations.EncodeOfDecode := fun _ _ _ _ h => decode_instr h

/-- Settles O4: the mask and match of A1 is the test of its fixed field. -/
theorem decodingInA32 : Obligations.DecodingInA32 := by
  intro instr
  simp only [ne_eq, matchesA1_iff]
  refine ⟨fun hp => ⟨decodeA32_of_pattern_of_1111 hp, fun hne => ?_⟩, decodeA32_of_no_pattern⟩
  obtain ⟨cond, hc⟩ := Cond.ofBits_of_ne hne
  exact ⟨cond, Cond.bits_of_ofBits hc, decodeA32_of_pattern_of_cond hp hc⟩

/-- Settles O5: each mask and match of R77 is the test of the fixed fields that `decode` reads. -/
theorem decodingInT32 : Obligations.DecodingInT32 := by
  refine ⟨?T1, ?T2, ?noT16, ?T3, ?T4, ?noT32, fun _ _ _ => decode_t32_narrow,
    fun _ _ _ _ _ => decode_t32_wide⟩
  case T1 =>
    intro hw1 hp
    rw [matchesT1_iff] at hp
    refine ⟨decodeT16_of_T1_of_al hp, decodeT16_of_T1_of_1111 hp, fun hne => ?_⟩
    rw [← extractLsb'_extractLsb'_of_add_le (len := 4) (lo := 8) (lo' := 1) (by omega)] at hne
    obtain ⟨cond, hc, hal⟩ := Cond.ofBits_of_top_ne hne
    exact ⟨cond, Cond.bits_of_ofBits hc, decodeT16_of_T1_of_cond hp hc hal⟩
  case T2 => exact fun hw1 hp => decodeT16_of_T2 ((matchesT2_iff hw1).mp hp)
  case noT16 =>
    intro hw1 h1 h2
    rw [ne_eq, matchesT1_iff] at h1
    rw [ne_eq, matchesT2_iff] at h2
    exact decodeT16_of_no_pattern h1 h2
  case T3 =>
    intro hw1 hw2 hp
    rw [matchesT3_iff] at hp
    refine ⟨decodeT32_of_T3_of_top_eq hp, fun hne => ?_⟩
    rw [← extractLsb'_extractLsb'_of_add_le (len := 4) (lo := 6) (lo' := 1) (by omega)] at hne
    obtain ⟨cond, hc, hal⟩ := Cond.ofBits_of_top_ne hne
    exact ⟨cond, Cond.bits_of_ofBits hc, decodeT32_of_T3_of_cond hp hc hal⟩
  case T4 => exact fun hw1 hw2 hp => decodeT32_of_T4 ((matchesT4_iff hw1 hw2).mp hp)
  case noT32 =>
    intro hw1 hw2 h3 h4
    rw [ne_eq, matchesT3_iff] at h3
    rw [ne_eq, matchesT4_iff] at h4
    refine decodeT32_of_no_pattern fun hp => ?_
    obtain hbit | hbit := BitVec.eq_zero_or_eq_one (hw2.extractLsb' 12 1)
    · exact h3 ⟨hp, hbit⟩
    · exact h4 ⟨hp, hbit⟩

/-- Settles O6: the fixed fields of each pattern, and a step refuses what `issue` refuses. -/
theorem neighbouringPatternsAreNotB : Obligations.NeighbouringPatternsAreNotB := by
  refine ⟨?cond1111, ?branchLink, ?udf, ?svc, ?related, ?otherWide, ?step⟩
  case cond1111 =>
    intro imm24
    apply decodeA32_of_pattern_of_1111
    · simp [↓BitVec.extractLsb'_append_eq_of_le, ↓BitVec.extractLsb'_append_eq_of_add_le]
    · simp [↓BitVec.extractLsb'_append_eq_of_le]
  case branchLink =>
    intro cond imm24
    apply decodeA32_of_no_pattern
    simp [↓BitVec.extractLsb'_append_eq_of_le, ↓BitVec.extractLsb'_append_eq_of_add_le]
  case udf =>
    intro imm8
    apply decodeT16_of_T1_of_al
    · simp [↓BitVec.extractLsb'_append_eq_of_le]
    · simp [↓BitVec.extractLsb'_append_eq_of_le, ↓BitVec.extractLsb'_append_eq_of_add_le]
  case svc =>
    intro imm8
    apply decodeT16_of_T1_of_1111
    · simp [↓BitVec.extractLsb'_append_eq_of_le]
    · simp [↓BitVec.extractLsb'_append_eq_of_le, ↓BitVec.extractLsb'_append_eq_of_add_le]
  case related =>
    intro S x J1 J2 imm6 imm11
    apply decodeT32_of_T3_of_top_eq
    · simp [↓BitVec.extractLsb'_append_eq_of_le, ↓BitVec.extractLsb'_append_eq_of_add_le]
    · simp [↓BitVec.extractLsb'_append_eq_of_le, ↓BitVec.extractLsb'_append_eq_of_add_le]
  case otherWide =>
    exact fun hw1 hw2 _ hne => decodeT32_of_no_pattern fun hp => hne hp.2
  case step =>
    exact fun _ _ _ hf had h hd => step_of_issue_refused (issue_of_notB hf had h hd)

/-- Settles O7: the length rule as a quotient, and each encoding's first halfword and length. -/
theorem lengthOfT32Instruction : Obligations.LengthOfT32Instruction :=
  ⟨isWideT32_iff, fun _ _ _ _ hs h => isWideT32_of_encode hs h, length_encode⟩

/-- Settles O8: the offset is the field `imm24` above two zeros, sign extended. -/
theorem offsetOfA1 : Obligations.OffsetOfA1 := by
  intro imm24
  obtain ⟨hlow, hhigh, -⟩ := permits_iff.mp (permits_a1_iff.mpr ⟨imm24, rfl⟩)
  refine ⟨rfl, ?zeros, imm32A1_imm24 imm24,
    fun _ h hi => getLsbD_scaled_of_le (x := imm24) (by omega) h hi, toInt_scaled (by omega), hlow,
    hhigh⟩
  ext i hi
  simpa [imm32A1] using getLsbD_scaled_of_lt (x := imm24) hi

/-- Settles O10: the offset is the field `imm11` above a zero, sign extended. -/
theorem offsetOfT2 : Obligations.OffsetOfT2 := by
  intro imm11
  obtain ⟨hlow, hhigh, -⟩ := permits_iff.mp (permits_t2_iff.mpr ⟨imm11, rfl⟩)
  exact ⟨rfl, getLsbD_scaled_of_lt (by omega), imm32T2_imm11 imm11,
    fun _ h hi => getLsbD_scaled_of_le (x := imm11) (by omega) h hi, toInt_scaled (by omega), hlow,
    hhigh⟩

/-- Settles O11: the five fields of the offset, its zero and its sign. -/
theorem offsetOfT3 : Obligations.OffsetOfT3 := by
  intro S imm6 J1 J2 imm11
  obtain ⟨hlow, hhigh, heven⟩ := permits_iff.mp (permits_t3_iff.mpr ⟨S, imm6, J1, J2, imm11, rfl⟩)
  exact ⟨rfl, getLsbD_scaled_of_lt (by omega), imm32T3_imm11, imm32T3_imm6, imm32T3_J1, imm32T3_J2,
    imm32T3_S, fun _ => imm32T3_getLsbD_of_le, heven, hlow, hhigh⟩

/-- Settles O12: the fields of the offset, of which `I1` and `I2` compare `J1` and `J2` with `S`. -/
theorem offsetOfT4 : Obligations.OffsetOfT4 := by
  intro S imm10 J1 J2 imm11
  obtain ⟨hlow, hhigh, heven⟩ := permits_iff.mp (permits_t4_iff.mpr ⟨S, imm10, J1, J2, imm11, rfl⟩)
  refine ⟨rfl, getLsbD_scaled_of_lt (by omega), imm32T4_imm11, imm32T4_imm10, ?I2, ?I1,
    imm32T4_S, fun _ => imm32T4_getLsbD_of_le, heven, hlow, hhigh⟩
  case I2 => rw [BitVec.getLsbD_eq_extractLsb', beq_iff_eq, imm32T4_I2, t4I_eq_one_iff]
  case I1 => rw [BitVec.getLsbD_eq_extractLsb', beq_iff_eq, imm32T4_I1, t4I_eq_one_iff]

/-- Settles O44: the permitted offsets of an encoding are the ones its decode block assembles, and
each gives its fields back. -/
theorem immediateAssemblyInverse : Obligations.ImmediateAssemblyInverse := by
  refine ⟨fun _ _ _ h => imm32_assembleFields h, ?a1, ?t1, ?t2, ?t3, ?t4⟩
  case a1 => exact fun cond imm24 => ⟨permits_a1_iff.mpr ⟨_, rfl⟩, by simp [assembleFields]⟩
  case t1 => exact fun cond imm8 => ⟨permits_t1_iff.mpr ⟨_, rfl⟩, by simp [assembleFields]⟩
  case t2 => exact fun cond imm11 => ⟨permits_t2_iff.mpr ⟨_, rfl⟩, by simp [assembleFields]⟩
  case t3 =>
    exact fun S cond imm6 J1 J2 imm11 =>
      ⟨permits_t3_iff.mpr ⟨_, _, _, _, _, rfl⟩, by simp [assembleFields]⟩
  case t4 =>
    intro S cond imm10 J1 J2 imm11
    refine ⟨permits_t4_iff.mpr ⟨_, _, _, _, _, rfl⟩, by simp [assembleFields], ?_, ?_⟩
    · rintro rfl h
      exact imm32T4_small_offset h
    · rintro rfl h
      exact imm32T4_small_offset h

/-- Settles O46: what the assembler wrote may stand where it is written, is executed under the
condition written and has the label as its target. -/
theorem assembledBranchReachesLabel : Obligations.AssembledBranchReachesLabel := by
  intro s c q label i had h
  obtain ⟨hw, hs, hp, hc⟩ := assemble_placed h
  refine ⟨hw, hs.symm, fun holds => ?_⟩
  rw [exec_taken had hw hs hp hc holds, pcRead_add_imm32_of_assemble h]

/-- Settles O47: the line of each encoding, and the label and the condition from what the assembler
selected. -/
theorem disassemblyShowsLabel : Obligations.DisassemblyShowsLabel := by
  constructor
  · intro s b
    refine ⟨fun _ _ => rfl, fun _ _ => rfl, fun imm11 hlow => ?_, fun _ _ _ _ _ _ => rfl,
      fun _ _ _ _ _ => rfl⟩
    simp [disassemble, itCondition_outside hlow, printedCond, imm32]
  · intro s c q label i b h
    obtain ⟨hw, -, -, hc⟩ := assemble_placed h
    refine ⟨disassemble_target.trans (pcRead_add_imm32_of_assemble h), ?_⟩
    cases i with
    | bA1 =>
      cases hc
      rfl
    | bT1 | bT3 =>
      cases hc
      exact (printedCond_of_ne_al (by simpa [Instr.wellFormed] using hw)).symm
    | bT2 => simp [disassemble, show itCondition s = _ from hc]
    | bT4 => rfl

/-- Settles O1: the decoder is evaluated on each word. -/
theorem specWordsDecode : Obligations.SpecWordsDecode :=
  ⟨rfl, rfl, rfl, rfl, rfl, rfl⟩

/-- Settles O9: the offset is the field `imm8` above a zero, sign extended. -/
theorem offsetOfT1 : Obligations.OffsetOfT1 := by
  intro imm8
  obtain ⟨hlow, hhigh, -⟩ := permits_iff.mp (permits_t1_iff.mpr ⟨imm8, rfl⟩)
  exact ⟨rfl, getLsbD_scaled_of_lt (by omega), imm32T1_imm8 imm8,
    fun _ h hi => getLsbD_scaled_of_le (x := imm8) (by omega) h hi, toInt_scaled (by omega), hlow,
    hhigh⟩

/-- Settles O29: each meaning tests the instruction set first, and T1 and T3 then the condition. -/
theorem meaningsOutsideTheirEncoding : Obligations.MeaningsOutsideTheirEncoding :=
  ⟨fun _ _ => exec_of_other_set, fun _ _ => condBranchT32_of_al,
    fun _ _ _ _ _ _ => condBranchT32_of_al⟩

/-- Settles O45: which of the two choices of `narrowOrWide` each place and condition leads to. -/
theorem encodingSelection : Obligations.EncodingSelection := by
  intro s o
  refine ⟨fun _ _ => selectEncoding_a32, ?conditional, ?itCondition⟩
  case conditional =>
    intro cond ht hlow hc
    simp only [selectEncoding_conditional ht (inITBlock_eq_false_iff.mpr hlow) hc]
    exact ⟨narrowOrWide_short (by decide), narrowOrWide_long (by decide), narrowOrWide_wide⟩
  case itCondition =>
    intro cond ht h
    obtain ⟨hp, hc⟩ : (inITBlock s = false ∨ lastInITBlock s = true) ∧
        itCondition s = some cond := by
      obtain ⟨hlow, rfl⟩ | ⟨hlow, hhigh⟩ := h
      · exact ⟨.inl (inITBlock_eq_false_iff.mpr hlow), itCondition_outside hlow⟩
      · refine ⟨.inr (lastInITBlock_iff.mpr hlow), ?_⟩
        rw [itCondition_inside (by rw [hlow]; decide), hhigh, Cond.ofBits_bits]
    simp only [selectEncoding_itCondition ht hp hc]
    exact ⟨narrowOrWide_short (by decide), narrowOrWide_long (by decide), narrowOrWide_wide⟩

end Sys2Proof.Machine

end

/-! ## A `B` that is taken, falls through, or would pass the top of the address space -/

section

namespace Sys2Proof.Machine

variable {s s' : State} {i : Instr} {cond : Cond}

section ExecuteBlock

variable {offset : Word} {ilen : Nat}

theorem executeBlock_taken (ha : pcAligned { s with pc := pcRead s + offset } = true)
    (holds : conditionHolds cond s = true) :
    executeBlock cond offset ilen s =
      .next { s with pc := pcRead s + offset, itstate := (itAdvance s).itstate } := by
  calc executeBlock cond offset ilen s
      = .next (itAdvance (branchWritePC (pcRead s + offset) .dir s)) := if_pos holds
    _ = .next (itAdvance { s with pc := pcRead s + offset }) := by rw [branchWritePC_of_aligned ha]

theorem executeBlock_not_taken (fails : conditionHolds cond s = false) :
    executeBlock cond offset ilen s = sequentialAdvance ilen s :=
  if_neg (by simp [fails])

end ExecuteBlock

/-- The target of a taken `B` in its own instruction set needs no low bit forced to zero. -/
theorem exec_taken_of_pcAligned (ha : pcAligned s = true) (hw : i.wellFormed = true)
    (hs : s.t = i.set) (hp : ItPlaced i s) (hc : currentCond i s = some cond)
    (holds : conditionHolds cond s = true) :
    exec i s =
      .next { s with pc := pcRead s + imm32 i, itstate := (itAdvance s).itstate } := by
  rw [exec_eq_executeBlock hw hs hp hc, executeBlock_taken (pcAligned_target hs ha) holds]

theorem exec_fallThrough (hw : i.wellFormed = true) (hs : s.t = i.set) (hp : ItPlaced i s)
    (hc : currentCond i s = some cond) (fails : conditionHolds cond s = false)
    (room : s.pc.toNat + i.ilen < 4294967296) :
    exec i s =
      .next { s with
        pc := s.pc + BitVec.ofNat 32 i.ilen, itstate := (itAdvance s).itstate } := by
  rw [exec_eq_executeBlock hw hs hp hc, executeBlock_not_taken fails]
  exact if_pos room

theorem exec_pastTop (hw : i.wellFormed = true) (hs : s.t = i.set) (hp : ItPlaced i s)
    (hc : currentCond i s = some cond) (fails : conditionHolds cond s = false)
    (top : 4294967296 ≤ s.pc.toNat + i.ilen) : exec i s = .refused .pastTopOfAddressSpace := by
  rw [exec_eq_executeBlock hw hs hp hc, executeBlock_not_taken fails]
  exact if_neg top.not_gt

/-- Where a meaning that answers a next state leaves `pc`: at the target or at the next instruction,
by its current condition (R100). -/
theorem exec_next_pc (ha : pcAligned s = true) (hc : currentCond i s = some cond)
    (h : exec i s = .next s') :
    s'.pc =
      if conditionHolds cond s then pcRead s + imm32 i else s.pc + BitVec.ofNat 32 i.ilen := by
  obtain ⟨hs, cond', hc', hx⟩ := exec_next h
  obtain rfl : cond' = cond := Option.some.inj (hc'.symm.trans hc)
  obtain ⟨holds, rfl⟩ | ⟨fails, -, rfl⟩ := executeBlock_next hx
  · rw [branchWritePC_of_aligned (pcAligned_target hs ha), if_pos holds]
    rfl
  · simp [fails]

/-- The distance covered depends on the instruction and its condition, not on the address (R116). -/
theorem exec_next_distance (ha : pcAligned s = true) (hc : currentCond i s = some cond)
    (h : exec i s = .next s') :
    s'.pc - s.pc =
      if conditionHolds cond s then pcReadOffset i.set + imm32 i else BitVec.ofNat 32 i.ilen := by
  obtain ⟨hs, -⟩ := exec_next h
  rw [exec_next_pc ha hc h]
  split
  · rw [pcRead, hs, add_assoc, add_sub_cancel_left]
  · rw [add_sub_cancel_left]

/-- Only an instruction of the set in force that is not placed as the IT block allows is UNPREDICTABLE
(R114). -/
theorem exec_unpredictable_iff (hw : i.wellFormed = true) :
    exec i s = .refused .unpredictable ↔ s.t = i.set ∧ ¬ItPlaced i s := by
  refine ⟨fun h => ?_, fun ⟨hs, hp⟩ => exec_of_not_placed hw hs hp⟩
  by_cases hs : s.t = i.set
  · obtain ⟨-, hp⟩ | ⟨hr, -⟩ | ⟨hr, -⟩ := exec_refused hw hs h
    · exact ⟨hs, hp⟩
    · cases hr
    · cases hr
  · rw [exec_of_other_set hs] at h
    cases h

end Sys2Proof.Machine

end

/-! ## What a condition reads, and the condition from the IT-state -/

section

namespace Sys2Proof

theorem Cond.ofBits_eq_some_iff {b : BitVec 4} {c : Cond} : Cond.ofBits b = some c ↔ c.bits = b :=
  ⟨Cond.bits_of_ofBits, by rintro rfl; exact Cond.ofBits_bits c⟩

/-- The condition with `cond[0]` set, read from the one with the same base test and `cond[0]` clear. -/
theorem Cond.ofBits_base_append_one {c d : Cond}
    (hbase : c.bits.extractLsb' 1 3 = d.bits.extractLsb' 1 3) (hd : d.bits.getLsbD 0 = true) :
    Cond.ofBits (c.bits.extractLsb' 1 3 ++ 1#1) = some d := by
  have hlow : d.bits.extractLsb' 0 1 = 1#1 := by
    rwa [BitVec.getLsbD_eq_extractLsb', beq_iff_eq] at hd
  rw [Cond.ofBits_eq_some_iff, hbase, ← hlow,
    BitVec.extractLsb'_append_extractLsb'_eq_extractLsb' (by omega)]
  exact BitVec.extractLsb'_eq_self.symm

end Sys2Proof

namespace Sys2Proof.Machine

variable {s s₁ s₂ : State} {cond : Cond}

/-- Setting `cond[0]` inverts the test (R102). -/
theorem conditionHolds_of_base_one {c d : Cond} (hc : c.bits.getLsbD 0 = false)
    (hd : Cond.ofBits (c.bits.extractLsb' 1 3 ++ 1#1) = some d) :
    conditionHolds d s = !conditionHolds c s := by
  cases c with
  | eq | cs | mi | vs | ge =>
    cases hd
    rfl
  | hi | gt =>
    cases hd
    simp [conditionHolds, bne]
  | al => cases hd
  | ne | cc | pl | vc | ls | lt | le => cases hc

theorem conditionHolds_congr (hn : s₁.n = s₂.n) (hz : s₁.z = s₂.z) (hc : s₁.c = s₂.c)
    (hv : s₁.v = s₂.v) : conditionHolds cond s₁ = conditionHolds cond s₂ := by
  simp only [conditionHolds, hn, hz, hc, hv]

theorem currentCond_congr (i : Instr) (h : s₁.itstate = s₂.itstate) :
    currentCond i s₁ = currentCond i s₂ := by
  have hit : itCondition s₁ = itCondition s₂ := by
    unfold itCondition inITBlock
    rw [h]
  cases i with
  | bA1 | bT1 | bT3 => rfl
  | bT2 | bT4 => exact hit

theorem inITBlock_iff_toNat : inITBlock s = true ↔ s.itstate.toNat % 16 ≠ 0 := by
  simp [inITBlock, ← BitVec.toNat_inj]

theorem lastInITBlock_iff_toNat : lastInITBlock s = true ↔ s.itstate.toNat % 16 = 8 := by
  simp [lastInITBlock, ← BitVec.toNat_inj]

/-- The condition that T2 and T4 take where they may stand: `AL` outside an IT block, the block's as its
last instruction (R101, R154). -/
theorem itCondition_of_placed
    (h : s.itstate.extractLsb' 0 4 = 0b0000#4 ∧ cond = .al ∨
      s.itstate.extractLsb' 0 4 = 0b1000#4 ∧ s.itstate.extractLsb' 4 4 = cond.bits) :
    (inITBlock s = false ∨ lastInITBlock s = true) ∧ itCondition s = some cond := by
  obtain ⟨hlow, rfl⟩ | ⟨hlow, hhigh⟩ := h
  · exact ⟨.inl (inITBlock_eq_false_iff.mpr hlow), itCondition_outside hlow⟩
  · refine ⟨.inr (lastInITBlock_iff.mpr hlow), ?_⟩
    rw [itCondition_inside (by simp [hlow]), hhigh, Cond.ofBits_bits]

theorem itCondition_of_last_1111 (hlow : s.itstate.extractLsb' 0 4 = 0b1000#4)
    (hhigh : s.itstate.extractLsb' 4 4 = 0b1111#4) : itCondition s = none := by
  rw [itCondition_inside (by simp [hlow]), hhigh]
  rfl

end Sys2Proof.Machine

end

/-! ## `BranchWritePC` and `ITAdvance()` on values -/

section

namespace Sys2Proof.Machine

variable {s : State} {i : Instr}

/-- Forcing the low `k` bits to zero rounds down to a multiple of `2 ^ k`. -/
theorem toNat_extractLsb'_append_zero {n k w : Nat} (h : w + k = n) (x : BitVec n) :
    (x.extractLsb' k w ++ 0#k).toNat = x.toNat / 2 ^ k * 2 ^ k := by
  have hfits : x.toNat / 2 ^ k < 2 ^ w := by
    rw [Nat.div_lt_iff_lt_mul (by positivity), ← pow_add, h]
    exact x.isLt
  rw [toNat_append_eq_add, BitVec.extractLsb'_toNat, Nat.shiftRight_eq_div_pow,
    Nat.mod_eq_of_lt hfits]
  simp

theorem itAdvanceValue_shift {it : BitVec 8} (h : it.extractLsb' 0 3 ≠ 0b000#3) :
    itAdvanceValue it = it.extractLsb' 5 3 ++ (it.extractLsb' 0 5 <<< 1) :=
  if_neg h

/-- In T32 state `ITAdvance()` leaves no IT block open where a `B` may stand, the IT-state being legal or
not (R105, R154). -/
theorem itAdvance_itstate_t32_of_placed (ht : s.t = .t32) (hs : s.t = i.set) (hp : ItPlaced i s) :
    (itAdvance s).itstate = 0#8 := by
  rw [itAdvance_itstate_t32 s ht]
  cases i with
  | bA1 => cases ht.symm.trans hs
  | bT1 | bT3 => exact itAdvanceValue_of_outside hp
  | bT2 | bT4 => exact hp.elim itAdvanceValue_of_outside itAdvanceValue_of_last

/-- The sum of R112 modulo 2^32, of the unsigned address and the signed offset. -/
theorem toNat_pcRead_add (offset : Word) :
    ((pcRead s + offset).toNat : Int) =
      (s.pc.toNat + (match s.t with | .a32 => 8 | .t32 => 4) + offset.toInt) % 4294967296 := by
  rw [BitVec.toInt_eq_toNat_cond, BitVec.toNat_add]
  cases ht : s.t with
  | a32 =>
    rw [pcRead_toNat_a32 ht]
    simp only
    omega
  | t32 =>
    rw [pcRead_toNat_t32 ht]
    simp only
    omega

end Sys2Proof.Machine

end

/-! ## The four T32 encodings, by where their condition comes from -/

section

namespace Sys2Proof.Machine

variable {s : State} {i : Instr} {cond : Cond}

/-- T2 and T4 as the last instruction of an IT block whose condition is 1111 (R101). -/
theorem exec_of_last_1111 (hs : s.t = i.set)
    (hp : ItPlaced i s ↔ inITBlock s = false ∨ lastInITBlock s = true)
    (hc : currentCond i s = itCondition s) (hlow : s.itstate.extractLsb' 0 4 = 0b1000#4)
    (hhigh : s.itstate.extractLsb' 4 4 = 0b1111#4) : exec i s = .refused .itConditionReserved :=
  exec_of_no_condition hs (hp.mpr (.inr (lastInITBlock_iff.mpr hlow)))
    (hc.trans (itCondition_of_last_1111 hlow hhigh))

/-- What a T32 `B` under a condition does where it may stand (R106, R108 to R111): taken, not taken, and
not taken at the top of the address space. -/
structure ExecutesUnder (cond : Cond) (i : Instr) (s : State) : Prop where
  taken : conditionHolds cond s = true →
    exec i s = .next { s with pc := s.pc + 4#32 + imm32 i, itstate := 0#8 }
  fallThrough : conditionHolds cond s = false → s.pc.toNat + i.ilen < 4294967296 →
    exec i s = .next { s with pc := s.pc + BitVec.ofNat 32 i.ilen, itstate := 0#8 }
  pastTop : conditionHolds cond s = false → 4294967296 ≤ s.pc.toNat + i.ilen →
    exec i s = .refused .pastTopOfAddressSpace

section T32

variable (ht : s.t = .t32) (hs : s.t = i.set) (hw : i.wellFormed = true)
include ht hs hw

theorem executesUnder_of_placed (ha : pcAligned s = true) (hp : ItPlaced i s)
    (hc : currentCond i s = some cond) : ExecutesUnder cond i s := by
  have hread : pcRead s = s.pc + 4#32 := by
    rw [pcRead, ht]
    rfl
  have hit := itAdvance_itstate_t32_of_placed ht hs hp
  constructor
  · intro holds
    rw [exec_taken_of_pcAligned ha hw hs hp hc holds, hread, hit]
  · intro fails room
    rw [exec_fallThrough hw hs hp hc fails room, hit]
  · exact exec_pastTop hw hs hp hc

/-- T1 and T3: the condition of the `cond` field, and no place inside an IT block (R108, R110). -/
theorem exec_conditional_t32 (ha : pcAligned s = true) (hp : ItPlaced i s ↔ inITBlock s = false)
    (hc : currentCond i s = some cond) :
    (s.itstate.extractLsb' 0 4 ≠ 0b0000#4 → exec i s = .refused .unpredictable) ∧
    (s.itstate.extractLsb' 0 4 = 0b0000#4 → ExecutesUnder cond i s) := by
  rw [inITBlock_eq_false_iff] at hp
  exact ⟨fun hin => exec_of_not_placed hw hs (mt hp.mp hin),
    fun hlow => executesUnder_of_placed ht hs hw ha (hp.mpr hlow) hc⟩

/-- T2 and T4: the condition of the IT-state, and no place inside an IT block but the last (R109,
R111). -/
theorem exec_itCondition_t32 (ha : pcAligned s = true)
    (hp : ItPlaced i s ↔ inITBlock s = false ∨ lastInITBlock s = true)
    (hc : currentCond i s = itCondition s) :
    (s.itstate.extractLsb' 0 4 ≠ 0b0000#4 → s.itstate.extractLsb' 0 4 ≠ 0b1000#4 →
      exec i s = .refused .unpredictable) ∧
    (s.itstate.extractLsb' 0 4 = 0b1000#4 → s.itstate.extractLsb' 4 4 = 0b1111#4 →
      exec i s = .refused .itConditionReserved) ∧
    (∀ cond : Cond,
      (s.itstate.extractLsb' 0 4 = 0b0000#4 ∧ cond = .al ∨
        s.itstate.extractLsb' 0 4 = 0b1000#4 ∧ s.itstate.extractLsb' 4 4 = cond.bits) →
      ExecutesUnder cond i s) := by
  refine ⟨fun hin hlast => ?between, exec_of_last_1111 hs hp hc, fun cond h => ?placed⟩
  case between =>
    refine exec_of_not_placed hw hs fun hplaced => ?_
    obtain hout | hl := hp.mp hplaced
    · exact hin (inITBlock_eq_false_iff.mp hout)
    · exact hlast (lastInITBlock_iff.mp hl)
  case placed =>
    obtain ⟨hplaced, hcond⟩ := itCondition_of_placed h
    exact executesUnder_of_placed ht hs hw ha (hp.mpr hplaced) (hc.trans hcond)

end T32

end Sys2Proof.Machine

end

/-! ## The obligations of the branch -/

section

namespace Sys2Proof.Machine

/-- Settles O15: T2 and T4 read `itCondition`, which 0xF8 leaves without a condition, and `exec_next_pc`
says where the condition sends `pc`. -/
theorem currentCondition : Obligations.CurrentCondition := by
  intro s
  refine ⟨fun _ _ => rfl, fun _ _ => rfl, fun _ _ _ _ _ _ => rfl, fun i hi => ?itState,
    fun _ _ _ ha hc h => exec_next_pc ha hc h⟩
  obtain ⟨hset, hp, hc⟩ : i.set = .t32 ∧
      (ItPlaced i s ↔ inITBlock s = false ∨ lastInITBlock s = true) ∧
      currentCond i s = itCondition s := by
    obtain ⟨imm11, rfl⟩ | ⟨S, imm10, J1, J2, imm11, rfl⟩ := hi
    · exact ⟨rfl, Iff.rfl, rfl⟩
    · exact ⟨rfl, Iff.rfl, rfl⟩
  rw [hc]
  refine ⟨itCondition_outside, fun hin cond => ?inside, fun ht h1111 => ?reserved⟩
  case inside => rw [itCondition_inside hin, Cond.ofBits_eq_some_iff]
  case reserved =>
    apply exec_of_last_1111 (ht.trans hset.symm) hp hc
    · rw [h1111]
      rfl
    · rw [h1111]
      rfl

/-- Settles O17: the shifted value field by field, and `ITAdvance()` in the frame of every meaning. -/
theorem itAdvanceEffect : Obligations.ItAdvanceEffect := by
  constructor
  · intro it
    refine ⟨fun h => if_pos h, fun h => ?_⟩
    rw [itAdvanceValue_shift h]
    exact ⟨BitVec.extractLsb'_append_eq_left, BitVec.extractLsb'_append_eq_right⟩
  · intro i s s' h
    rw [exec_frame h]
    exact ⟨itAdvance_itstate_t32 s, itAdvance_itstate_a32 s⟩

/-- Settles O18: forcing the low bits to zero rounds the address down. -/
theorem branchWritePcEffect : Obligations.BranchWritePcEffect := by
  intro address b s
  constructor
  · intro ht
    have hpc : address.extractLsb' 2 30 ++ 0b00#2 = BitVec.ofNat 32 (address.toNat / 4 * 4) := by
      rw [← BitVec.toNat_inj, toNat_extractLsb'_append_zero rfl, BitVec.toNat_ofNat]
      omega
    simp only [branchWritePC, ht, hpc]
  · intro ht
    have hpc : address.extractLsb' 1 31 ++ 0b0#1 = BitVec.ofNat 32 (address.toNat / 2 * 2) := by
      rw [← BitVec.toNat_inj, toNat_extractLsb'_append_zero rfl, BitVec.toNat_ofNat]
      omega
    simp only [branchWritePC, ht, hpc]

/-- Settles O19: the next state of a taken `B` and the sum that is its `pc`. -/
theorem targetArithmetic : Obligations.TargetArithmetic :=
  fun _ _ _ hw hs ha hp hc holds =>
    ⟨_, exec_taken_of_pcAligned ha hw hs hp hc holds, toNat_pcRead_add _, rfl, rfl, rfl, rfl⟩

/-- Settles O20: the two outcomes of a sequential advance. -/
theorem conditionFailed : Obligations.ConditionFailed :=
  ⟨fun i => by cases i <;> rfl, fun _ _ _ hw hs hp hc fails =>
    ⟨exec_fallThrough hw hs hp hc fails, exec_pastTop hw hs hp hc fails⟩⟩

/-- Settles O21: A1 may stand anywhere and leaves the IT-state. -/
theorem branchA1 : Obligations.BranchA1 := by
  refine ⟨?operation, rfl, rfl, rfl, rfl, rfl, ?encoding, rfl⟩
  case operation =>
    intro cond imm24 s ht ha
    have hread : pcRead s = s.pc + 8#32 := by
      rw [pcRead, ht]
      rfl
    have hit := itAdvance_itstate_a32 s ht
    refine ⟨fun holds => ?taken, fun fails room => ?fallThrough,
      exec_pastTop (i := .bA1 cond imm24) rfl ht trivial rfl⟩
    case taken =>
      rw [exec_taken_of_pcAligned (i := .bA1 cond imm24) ha rfl ht trivial rfl holds, hread, hit]
      rfl
    case fallThrough =>
      rw [exec_fallThrough (i := .bA1 cond imm24) rfl ht trivial rfl fails room, hit]
      rfl
  case encoding =>
    intro cond imm24
    rw [encode, encodeA1, BitVec.append_assoc (x₁ := cond.bits)]
    rfl

/-- Settles O22: T1 is conditional and its offset is `imm8` above a zero, sign extended. -/
theorem branchT1 : Obligations.BranchT1 := by
  refine ⟨?operation, rfl, rfl, rfl, rfl, rfl, fun _ _ => rfl, rfl⟩
  intro cond imm8 s ht ha hal
  obtain ⟨inside, outside⟩ := exec_conditional_t32 (i := .bT1 cond imm8) ht ht
    (bne_iff_ne.mpr hal) ha Iff.rfl rfl
  exact ⟨inside, fun hlow => (outside hlow).taken, fun hlow => (outside hlow).fallThrough,
    fun hlow => (outside hlow).pastTop⟩

/-- Settles O23: T2 takes the condition of the IT-state. -/
theorem branchT2 : Obligations.BranchT2 := by
  refine ⟨?operation, rfl, rfl, rfl, rfl, rfl, fun _ => rfl, rfl⟩
  intro imm11 s ht ha
  obtain ⟨between, reserved, placed⟩ := exec_itCondition_t32 (i := .bT2 imm11) ht ht rfl ha Iff.rfl rfl
  exact ⟨between, reserved, fun cond h =>
    ⟨(placed cond h).taken, (placed cond h).fallThrough, (placed cond h).pastTop⟩⟩

/-- Settles O24: T3 is conditional, and its offset holds `J2` above `J1`. -/
theorem branchT3 : Obligations.BranchT3 := by
  refine ⟨?operation, rfl, rfl, rfl, rfl, rfl, rfl, fun _ _ _ _ _ _ => rfl, rfl⟩
  intro S cond imm6 J1 J2 imm11 s ht ha hal
  obtain ⟨inside, outside⟩ := exec_conditional_t32 (i := .bT3 S cond imm6 J1 J2 imm11) ht ht
    (bne_iff_ne.mpr hal) ha Iff.rfl rfl
  exact ⟨inside, fun hlow => (outside hlow).taken, fun hlow => (outside hlow).fallThrough,
    fun hlow => (outside hlow).pastTop⟩

/-- Settles O25: T4 takes the condition of the IT-state, and its offset holds `I1` above `I2`. -/
theorem branchT4 : Obligations.BranchT4 := by
  refine ⟨?operation, rfl, rfl, rfl, rfl, rfl, fun _ _ _ _ _ => rfl, rfl⟩
  intro S imm10 J1 J2 imm11 s ht ha
  obtain ⟨between, reserved, placed⟩ := exec_itCondition_t32 (i := .bT4 S imm10 J1 J2 imm11) ht ht
    rfl ha Iff.rfl rfl
  exact ⟨between, reserved, fun cond h =>
    ⟨(placed cond h).taken, (placed cond h).fallThrough, (placed cond h).pastTop⟩⟩

/-- Settles O26: the instructions that are not placed as the IT block allows, by their encoding. -/
theorem unpredictableCases : Obligations.UnpredictableCases := by
  intro i s hw
  have inside : ¬inITBlock s = false ↔ s.itstate.toNat % 16 ≠ 0 := by
    rw [Bool.not_eq_false, inITBlock_iff_toNat]
  rw [exec_unpredictable_iff hw]
  cases i with
  | bA1 => simp
  | bT1 | bT3 => exact and_congr_right fun _ => inside
  | bT2 | bT4 =>
    exact and_congr_right fun _ => not_or.trans (and_congr inside lastInITBlock_iff_toNat.not)

/-- Settles O30: where a taken `B` leaves `pc`, and what the distance it covers depends on. -/
theorem cornerCasesOfBranch : Obligations.CornerCasesOfBranch := by
  refine ⟨?offsets, ?distance, fun _ => rfl, fun _ _ _ hs ha =>
    branchWritePC_of_aligned (pcAligned_target hs ha)⟩
  case offsets =>
    intro i cond s s' ha hc holds h
    have hpc : s'.pc = s.pc + pcReadOffset s.t + imm32 i := by
      rw [exec_next_pc ha hc h, if_pos holds, pcRead]
    refine ⟨fun h0 => ?_, fun hself => ?_, fun hnext => ?_⟩
    · rw [hpc, h0, BitVec.add_zero, pcRead]
    · rw [hpc, hself, add_add_sub_cancel, BitVec.add_zero]
    · rw [hpc, hnext, add_add_sub_cancel]
  case distance =>
    intro i s₁ s₂ s₁' s₂' ha₁ ha₂ hn hz hc hv hit h₁ h₂
    obtain ⟨-, cond, hcond, -⟩ := exec_next h₁
    rw [exec_next_distance ha₁ hcond h₁,
      exec_next_distance ha₂ ((currentCond_congr i hit).symm.trans hcond) h₂,
      conditionHolds_congr hn hz hc hv]

/-- Settles O38: the step executes the instruction, which is taken or falls through. -/
theorem admittedStepCompletes : Obligations.AdmittedStepCompletes := by
  intro s i cond hf had hw hs hbytes hp hc hgoes
  obtain ⟨ha, hl⟩ := had
  rw [step_of_issue_next (issue_encode hf ⟨ha, hl⟩ hw hs hbytes),
    ← itAdvance_itstate_of_placed hs hl hp]
  obtain holds | fails := Bool.eq_false_or_eq_true (conditionHolds cond s)
  · rw [exec_taken_of_pcAligned ha hw hs hp hc holds, if_pos holds]
  · rw [exec_fallThrough hw hs hp hc fails (hgoes.resolve_left (by simp [fails]))]
    simp only [fails, Bool.false_eq_true, if_false]

/-- Settles O14: the table row by row; the inversion is `conditionHolds_of_base_one`. -/
theorem conditionTable : Obligations.ConditionTable := by
  refine ⟨fun s => ?rows, fun s c d hbase hc hd =>
    conditionHolds_of_base_one hc (Cond.ofBits_base_append_one hbase hd), by decide, fun b => ?none⟩
  case rows => simp [conditionHolds]
  case none => exact ⟨Cond.eq_of_ofBits_eq_none, by rintro rfl; rfl⟩

/-- Settles O16: the low half of `ITSTATE` as a number. -/
theorem itBlockTests : Obligations.ItBlockTests := fun _ =>
  ⟨inITBlock_iff_toNat, lastInITBlock_iff_toNat⟩

/-- Settles O31: the tests of `issue` are passed, and the step executes what it found. -/
theorem stepRunsDecodedInstruction : Obligations.StepRunsDecodedInstruction :=
  fun _ _ _ _ hf had h hd => step_of_issue_next (issue_of_decode hf had h hd)

end Sys2Proof.Machine

end

/-! ## The order of the checks -/

section

namespace Sys2Proof.Machine

theorem issue_of_final {s : State} (hf : s.Final) : issue s = .fault .halted := if_pos hf

end Sys2Proof.Machine

end

/-! ## The obligations of the exceptions -/

section

namespace Sys2Proof.Machine

/-- Settles O33: the tests of `issue` in their order, and the refusals of a decoded instruction's
meaning in theirs. -/
theorem orderOfTheChecks : Obligations.OrderOfTheChecks := by
  intro s
  refine ⟨fun final => step_of_issue_fault (issue_of_final final),
    fun hf misaligned => step_of_issue_refused (issue_of_misalignedPc hf misaligned),
    fun hf ha illegal => step_of_issue_refused (issue_of_illegalItState hf ha illegal),
    fun hf ha hl missing => step_of_issue_fault (issue_of_fetch_none hf ⟨ha, hl⟩ missing),
    fun bytes r hf ha hl hb hd => step_of_issue_refused (issue_of_notB hf ⟨ha, hl⟩ hb hd),
    fun bytes i rest hf ha hl hb hd => ?decoded⟩
  case decoded =>
    have hstep : step s = exec i s := step_of_issue_next (issue_of_decode hf ⟨ha, hl⟩ hb hd)
    obtain ⟨hw, hset, -⟩ := decode_instr hd
    rw [hstep]
    exact ⟨rfl, exec_of_not_placed hw hset.symm, exec_of_no_condition hset.symm,
      fun cond => exec_pastTop hw hset.symm⟩

/-- Settles O28: the shared operations of the five meanings answer no fault. -/
theorem branchRaisesNoException : Obligations.BranchRaisesNoException := fun _ _ _ => exec_ne_fault

end Sys2Proof.Machine

end

/-! ## The invariant of a step -/

section

namespace Sys2Proof.Machine

variable {s s' : State}

/-- The IT-state zero is legal in both instruction sets (R25). -/
theorem itLegal_of_itstate_eq_zero (h : s.itstate = 0#8) : itLegal s = true := by
  have hzero : s.itstate.toNat = 0 := by rw [h]; rfl
  cases ht : s.t with
  | a32 => exact (itLegal_a32_iff ht).mpr hzero
  | t32 => exact (itLegal_t32_iff ht).mpr (.inl hzero)

/-- Premises (a) and (b) of R151 hold after every step. -/
theorem step_admissible (h : step s = .next s') : s'.Admissible :=
  ⟨step_pcAligned h, itLegal_of_itstate_eq_zero (step_itstate h)⟩

/-- No step writes `ProgramText` (R41, R45). -/
theorem step_programText (h : step s = .next s') : s'.programText = s.programText := by
  rw [step_frame h]

end Sys2Proof.Machine

end

/-! ## Runs that stop, and runs that never do -/

section

namespace Sys2Proof.Machine

variable {s : State} {i : Instr} {cond : Cond}

theorem run_succ_of_step {k : Nat} {s₁ : State} (h : step s = .next s₁) :
    run (k + 1) s = run k s₁ := by
  simp [run, h]

/-- A property whose states all have a next state with the property holds along a run of any length. -/
theorem run_next_of_progress {P : State → Prop}
    (progress : ∀ s, P s → ∃ s₁, step s = .next s₁ ∧ P s₁) (k : Nat) (h : P s) :
    ∃ s', run k s = .next s' ∧ P s' := by
  induction k generalizing s with
  | zero => exact ⟨s, rfl, h⟩
  | succ k ih =>
    obtain ⟨s₁, hstep, h₁⟩ := progress s h
    rw [run_succ_of_step hstep]
    exact ih h₁

/-- A state that is not final and has no next state is no end of run (R156). -/
theorem not_endsWell_of_stuck (hf : ¬s.Final) (stuck : ∀ s', step s ≠ .next s') : ¬EndsWell s := by
  rintro ⟨k, s', hrun, final⟩
  cases k with
  | zero =>
    cases hrun
    exact hf final
  | succ k =>
    obtain ⟨s₁, hstep, -⟩ := run_succ_next hrun
    exact stuck s₁ hstep

/-! A `B` to itself. Taken as the last instruction of an IT block it ends the block, and stands after it
under the condition AL; so the property that it keeps is stated for some condition that holds. -/

theorem itPlaced_itstate_zero : ItPlaced i { s with itstate := 0#8 } := by
  cases i with
  | bA1 => exact trivial
  | bT1 | bT3 => exact rfl
  | bT2 | bT4 => exact .inl rfl

/-- A current condition that holds is followed by one that holds when the IT-state becomes zero: T2 and
T4 then take AL (R101). -/
theorem currentCond_holds_itstate_zero (hc : currentCond i s = some cond)
    (holds : conditionHolds cond s = true) :
    ∃ cond', currentCond i { s with itstate := 0#8 } = some cond' ∧
      conditionHolds cond' { s with itstate := 0#8 } = true := by
  cases i with
  | bA1 | bT1 | bT3 => exact ⟨cond, hc, holds⟩
  | bT2 | bT4 => exact ⟨.al, rfl, rfl⟩

/-- At `pc` stands the encoding of `i`, a `B` to itself that is taken (R154, R156). -/
structure BranchesToItself (i : Instr) (s : State) : Prop where
  notFinal : ¬s.Final
  admissible : s.Admissible
  placed : ItPlaced i s
  wellFormed : i.wellFormed = true
  set : s.t = i.set
  bytes : readBytes s.programText s.pc i.ilen = some (encode i)
  offset : imm32 i = 0#32 - pcReadOffset s.t
  taken : ∃ cond, currentCond i s = some cond ∧ conditionHolds cond s = true

theorem BranchesToItself.step_eq (h : BranchesToItself i s) :
    step s = .next { s with itstate := 0#8 } := by
  obtain ⟨cond, hc, holds⟩ := h.taken
  have htarget : pcRead s + imm32 i = s.pc := by
    rw [h.offset, pcRead, add_add_sub_cancel, BitVec.add_zero]
  rw [step_of_issue_next (issue_encode h.notFinal h.admissible h.wellFormed h.set h.bytes),
    exec_taken h.admissible h.wellFormed h.set h.placed hc holds, htarget]

theorem BranchesToItself.itstate_zero (h : BranchesToItself i s) :
    BranchesToItself i { s with itstate := 0#8 } := by
  obtain ⟨cond, hc, holds⟩ := h.taken
  exact { h with
    admissible := step_admissible h.step_eq
    placed := itPlaced_itstate_zero
    taken := currentCond_holds_itstate_zero hc holds }

theorem BranchesToItself.run_next (h : BranchesToItself i s) (k : Nat) :
    ∃ s', run k s = .next s' ∧ BranchesToItself i s' :=
  run_next_of_progress (fun _ h => ⟨_, h.step_eq, h.itstate_zero⟩) k h

theorem BranchesToItself.hangs (h : BranchesToItself i s) : Hangs s := by
  intro k
  obtain ⟨s', hrun, -⟩ := h.run_next k
  exact ⟨s', hrun⟩

theorem BranchesToItself.not_endsWell (h : BranchesToItself i s) : ¬EndsWell s := by
  rintro ⟨k, s', hrun, final⟩
  obtain ⟨s'', hrun', h''⟩ := h.run_next k
  cases hrun.symm.trans hrun'
  exact h''.notFinal final

end Sys2Proof.Machine

end

/-! ## The obligations of runs -/

section

namespace Sys2Proof.Machine

/-- Settles O39: `pc` and the IT-state as every step leaves them, and `ProgramText` as it was. -/
theorem stepKeepsInv : Obligations.StepKeepsInv := by
  intro s s' ⟨_, hwf⟩ h
  refine ⟨step_admissible h, ?_⟩
  rwa [step_programText h]

/-- Settles O43: a final state ends its run after no step, and a `B` to itself keeps `BranchesToItself`,
of which no state is final. -/
theorem endAndHangOfARun : Obligations.EndAndHangOfARun := by
  refine ⟨fun s final => ⟨step_of_issue_fault (issue_of_final final), 0, s, rfl, final⟩,
    fun _ => not_endsWell_of_stuck, ?toItself⟩
  case toItself =>
    intro s i cond hf had hp hw hs hbytes hoffset hc holds
    have h : BranchesToItself i s := ⟨hf, had, hp, hw, hs, hbytes, hoffset, cond, hc, holds⟩
    exact ⟨h.step_eq, h.hangs, h.not_endsWell⟩

/-- Settles O40: `pc` 0 and the IT-state 0 in A32, and an empty `ProgramText`. -/
theorem resetHasInv : Obligations.ResetHasInv := ⟨⟨rfl, rfl⟩, reset_programText_wf⟩

end Sys2Proof.Machine

end
